-- ==== Sys2Proof/Word.lean ====
section
/-! DEFINITION. The values the engine computes with: bytes, 32-bit words, the 64-bit count, the 16-bit command word
(00_scope.md R5, R6). Everything is unsigned. -/

namespace Sys2Proof

/-- A byte: 8 bits, values 0 to 255 (00_scope.md R5). -/
abbrev Byte := BitVec 8

/-- A word: an unsigned 32-bit value (00_scope.md R5). `x + y` on words is the spec's `x +32 y`, addition modulo 2^32
with the carry dropped (40_datapath.md R56); `&&&`, `|||`, `^^^`, `~~~` are AND, OR, XOR, NOT (R57). -/
abbrev Word := BitVec 32

/-- The 64-bit unsigned message bit count (10_state.md R12). -/
abbrev Count := BitVec 64

/-- A command word: `OP` in bits 15:8, `LEN` in bits 7:0 (30_encoding.md R41). -/
abbrev CmdWord := BitVec 16

end Sys2Proof
end

