-- ==== Sys2Proof/Config.lean ====
section
/-! DEFINITION. The sizes of the engine (00_scope.md R4). "Every size of the engine is fixed by the source": all but the
number of engines are constants. `WORD_BITS`, `N_ACC`, `BITLEN_BITS` and `CMD_BITS` are the types `Word`, `Accum`, `Count` and
`CmdWord`; `N_ROUNDS` is one round for each schedule word. No free value is needed: no command reads a register that holds no value. -/

namespace Sys2Proof.Config

/-- `BLOCK_BYTES`: the block size in bytes (R4). -/
abbrev blockBytes : Nat := 64

/-- The block size in bits: what one `BLOCK` adds to `BITLEN` (R4, 41_absorb.md R72). -/
abbrev blockBits : Nat := 512

/-- `N_SCHED`: schedule entries per block, one for each of the `N_ROUNDS` rounds (R4). -/
abbrev schedWords : Nat := 80

/-- `FINAL_MAX`: the largest byte count `FINAL` accepts (R4). -/
abbrev finalMax : Nat := 63

/-- `TAIL_MAX`: the largest padded tail, two blocks (R4, 42_finalize.md R84). -/
abbrev tailMax : Nat := 128

/-- `DIGEST_BYTES`: the result size (R4). -/
abbrev digestBytes : Nat := 20

/-- `MAX_MSG_BITS`: the longest message, in bits (R4, 60_exceptions.md R110). -/
abbrev maxMsgBits : Nat := 2 ^ 64 - 1

/-- The default of `N_ENGINES`, the one open parameter (R4). -/
abbrev defaultEngines : Nat := 1

end Sys2Proof.Config
end

