-- ==== Sys2Proof/Syntax.lean ====
section
/-! DEFINITION. The four commands (30_encoding.md R42), one constructor for each row of spec/opcode_table.json. A command is
a whole packet (00_scope.md R9): its payload is its operand. -/

namespace Sys2Proof

/-- A command with its payload. The `LEN` field is the payload's length (30_encoding.md R43, R44). -/
inductive Instr where
  /-- `INIT`: create a fresh `DigestState` (41_absorb.md R70). -/
  | init
  /-- `BLOCK`: fold one full block, the payload, into the state (41_absorb.md R72). -/
  | block (payload : List Byte)
  /-- `FINAL`: pad and fold the last 0 to 63 bytes, the payload (42_finalize.md R82). -/
  | final (payload : List Byte)
  /-- `EXTRACT`: hand out the 20 digest bytes (42_finalize.md R86). -/
  | extract
deriving DecidableEq, Repr

/-- The payload of a command: `INIT` and `EXTRACT` have none (30_encoding.md R44). -/
def Instr.payload : Instr → List Byte
  | .init => []
  | .block p => p
  | .final p => p
  | .extract => []

end Sys2Proof
end

