-- ==== Sys2Proof/WellFormed.lean ====
section
/-! DEFINITION. Which commands can be written as a legal packet: the transfer widths (20_memory.md R31; the column "legal
LEN" of 30_encoding.md R42). -/

namespace Sys2Proof

/-- The payload has a length that is legal for the command (20_memory.md R31). -/
def Instr.wellFormed : Instr → Bool
  | .init => true
  | .block p => p.length == Config.blockBytes
  | .final p => p.length ≤ Config.finalMax
  | .extract => true

end Sys2Proof
end

