-- ==== Sys2Proof/Decode.lean ====
section
/-! DEFINITION. Decoding and encoding of command packets (30_encoding.md). The decoder is total on every byte sequence and
rejects by name; the same in every phase (R49). -/

namespace Sys2Proof

/-- The four defined operation codes (30_encoding.md R42). -/
inductive Op where
  | init | block | final | extract
deriving DecidableEq, Repr

/-- The value of the `OP` field (30_encoding.md R42). -/
def Op.byte : Op → Byte
  | .init => 0x01
  | .block => 0x02
  | .final => 0x03
  | .extract => 0x04

/-- Decoding matches on `OP` alone; `0x00` and `0x05` to `0xFF` are reserved (30_encoding.md R42, R48). -/
def Op.ofByte (b : Byte) : Option Op :=
  if b = 0x01 then some .init
  else if b = 0x02 then some .block
  else if b = 0x03 then some .final
  else if b = 0x04 then some .extract
  else none

/-- The column "legal `LEN`" (30_encoding.md R42). -/
def Op.lenLegal : Op → Nat → Bool
  | .init, n => n == 0
  | .block, n => n == Config.blockBytes
  | .final, n => n ≤ Config.finalMax
  | .extract, n => n == 0

/-- The command an operation code and its payload stand for. -/
def Op.instr : Op → List Byte → Instr
  | .init, _ => .init
  | .block, p => .block p
  | .final, p => .final p
  | .extract, _ => .extract

/-- The operation code of a command. -/
def Instr.op : Instr → Op
  | .init => .init
  | .block _ => .block
  | .final _ => .final
  | .extract => .extract

/-- What the decoder finds at the front of a byte sequence, with the bytes behind what it has read. -/
inductive Decoded where
  /-- A whole legal packet (30_encoding.md R40). -/
  | packet (i : Instr) (rest : List Byte)
  /-- Fewer bytes than the packet needs (30_encoding.md R53). -/
  | incomplete
  /-- A reserved `OP`: `E_OPCODE` (30_encoding.md R48). Only the command word has been read. -/
  | reservedOp (rest : List Byte)
  /-- A `LEN` that is not legal for the `OP`: `E_LENGTH` (30_encoding.md R43). Only the command word has been read. -/
  | illegalLen (rest : List Byte)
deriving DecidableEq, Repr

/-- The reading half of the decode loop (30_encoding.md R50): the command word, `OP` first (R45), the two checks that need
only the word, then `LEN` payload bytes. -/
def decode : List Byte → Decoded
  | opByte :: len :: rest =>
    match Op.ofByte opByte with
    | none => .reservedOp rest
    | some op =>
      if op.lenLegal len.toNat then
        if len.toNat ≤ rest.length then .packet (op.instr (rest.take len.toNat)) (rest.drop len.toNat)
        else .incomplete
      else .illegalLen rest
  | _ => .incomplete

/-- The `LEN` field of a command: its payload length as 8 bits (30_encoding.md R43). -/
def Instr.len (i : Instr) : Byte := BitVec.ofNat 8 i.payload.length

/-- The packet of a command: `OP`, `LEN`, payload (30_encoding.md R40). -/
def encode (i : Instr) : List Byte := i.op.byte :: i.len :: i.payload

/-- The classes of command words (30_encoding.md R48). -/
inductive WordClass where
  | legal (op : Op) | illegalLen | reservedOp
deriving DecidableEq, Repr

/-- `OP` is `CW[15:8]` (30_encoding.md R41). -/
def CmdWord.op (cw : CmdWord) : Byte := cw.extractLsb' 8 8

/-- `LEN` is `CW[7:0]` (30_encoding.md R41). -/
def CmdWord.len (cw : CmdWord) : Byte := cw.extractLsb' 0 8

/-- The class of a command word, by `OP` and then `LEN` (30_encoding.md R42, R48). -/
def classify (cw : CmdWord) : WordClass :=
  match Op.ofByte (CmdWord.op cw) with
  | none => .reservedOp
  | some op => if op.lenLegal (CmdWord.len cw).toNat then .legal op else .illegalLen

/-- One row of the opcode table: the (match, mask) pairs of 30_encoding.md R42 and opcode_table.json. -/
structure OpRow where
  op : Op
  legalMatch : CmdWord
  legalMask : CmdWord
  opMatch : CmdWord
  opMask : CmdWord
deriving DecidableEq, Repr

/-- The opcode table as opcode_table.json gives it (30_encoding.md R42, 90_conflicts.md C13). -/
def opcodeTable : List OpRow :=
  [ ⟨.init, 0x0100, 0xFFFF, 0x0100, 0xFF00⟩,
    ⟨.block, 0x0240, 0xFFFF, 0x0200, 0xFF00⟩,
    ⟨.final, 0x0300, 0xFFC0, 0x0300, 0xFF00⟩,
    ⟨.extract, 0x0400, 0xFFFF, 0x0400, 0xFF00⟩ ]

/-- The command word selects a legal word of the row. -/
def OpRow.isLegal (r : OpRow) (cw : CmdWord) : Bool := cw &&& r.legalMask == r.legalMatch

/-- The command word has the row's `OP`, whatever its `LEN`. -/
def OpRow.hasOp (r : OpRow) (cw : CmdWord) : Bool := cw &&& r.opMask == r.opMatch

/-- The bytes of `k` 16-bit words, numbered as opcode_table.json numbers bits: the first word is the least significant;
each word travels most significant byte first (30_encoding.md R45). -/
def wordBytes : Nat → Nat → List Byte
  | 0, _ => []
  | k + 1, w => BitVec.ofNat 8 (w / 256) :: BitVec.ofNat 8 w :: wordBytes k (w / 65536)

/-- The packet a table word stands for: the command word, then the `LEN` payload bytes, zero where the table gives no bits
(log entry 12). -/
def tablePacket (nbits w : Nat) : List Byte :=
  let bytes := wordBytes 129 (w % 2 ^ nbits)
  bytes.take (2 + w % 256)

/-- The command the decoder reads from a table word; none where it refuses. -/
def decodeTableWord (nbits w : Nat) : Option Instr :=
  match decode (tablePacket nbits w) with
  | .packet i _ => some i
  | .incomplete => none
  | .reservedOp _ => none
  | .illegalLen _ => none

end Sys2Proof
end

