-- ==== Sys2Proof/Machine/State.lean ====
section
/-! DEFINITION. The architectural state of the engine as plain data (10_state.md), the fault codes of the engine, the stops
of the model, and the state after reset (R22, 70_reset_and_hazards.md R120). -/

namespace Sys2Proof.Machine

/-- The accumulator `ACC[0..4]` (10_state.md R10). -/
structure Accum where
  acc0 : Word
  acc1 : Word
  acc2 : Word
  acc3 : Word
  acc4 : Word
deriving DecidableEq, Repr

/-- `DigestState`: the accumulator and `BITLEN` (10_state.md R12, 00_scope.md glossary). -/
structure DigestState where
  acc : Accum
  bitlen : Count
deriving DecidableEq, Repr

/-- The names of the four values of `PHASE` (10_state.md R14). -/
inductive Phase where
  | idle | active | frozen | fault
deriving DecidableEq, Repr

/-- The control register `PHASE` together with the registers that hold a value in it (10_state.md R14): in `IDLE` "No
`DigestState` exists", in `FAULT` "`ACC` and `BITLEN` hold no value". This is the "state constructor without those fields"
of R22; log entry 1. -/
inductive Stage where
  | idle
  | active (d : DigestState)
  | frozen (d : DigestState)
  | fault
deriving DecidableEq, Repr

/-- The block buffer's contents: the bytes it holds, by address, addresses strictly rising. An unlisted address holds no
value (10_state.md R22, log entry 2). -/
abbrev Memory := List Host.Cell

/-- The four engine faults (60_exceptions.md R105). Taking one is a NEXT state of the model (fault entry, R112), not a stop. -/
inductive FaultCode where
  | opcode | length | phase | overflow
deriving DecidableEq, Repr

/-- Why the model stops: accesses to the block buffer that no rule of the spec gives a value. Both safe: no command reaches
either, since every block is read right after all 64 bytes are written. -/
inductive Fault where
  /-- Raised by `memRead`: a byte of `BUF` that nothing has written since reset is read (10_state.md R22). Safe. -/
  | bufferUnwritten
  /-- Raised by `memRead` and `memWrite`: `addr + n > 64` (00_scope.md R8; 44_absent_classes.md R104: cannot arise). Safe. -/
  | bufferRange
deriving DecidableEq, Repr

/-- Why the model gives an instruction no meaning. -/
inductive Refusal where
  /-- No meaning written for the instruction with this mnemonic. Safe. No arm of `exec` answers it. -/
  | notModelled (mnemonic : String)
deriving DecidableEq, Repr

/-- The engine's state. -/
structure State where
  /-- `PHASE`, `ACC` and `BITLEN` (10_state.md R10, R12, R14). -/
  stage : Stage
  /-- `ERRCODE` (10_state.md R17). -/
  errcode : Byte
  /-- `BUF[0..63]` (10_state.md R19): filled and read inside a `BLOCK` or `FINAL`, empty between commands (log entry 3). -/
  buf : Memory
  /-- The command stream: bytes appended by the host and not yet consumed, first in first (20_memory.md R26). -/
  cmd : List Byte
  /-- The response stream: bytes appended by the engine and not yet taken by the host, first in first (20_memory.md R27). -/
  resp : List Byte
deriving DecidableEq, Repr

/-- The state after hardware reset: `PHASE = IDLE`, `ERRCODE = 0x00`, `ACC`, `BITLEN` and `BUF` hold no value, both streams
empty (10_state.md R22, 70_reset_and_hazards.md R120). -/
def State.reset : State := { stage := .idle, errcode := 0x00, buf := [], cmd := [], resp := [] }

end Sys2Proof.Machine
end

