-- ==== Sys2Proof/Machine/Operands.lean ====
section
/-! DEFINITION. Operand forms: the conversions between bytes and wider values (00_scope.md R7), the one immediate
(30_encoding.md R43), the padded tail of FINAL (42_finalize.md R78 to R81) and the serialised digest (R86). -/

namespace Sys2Proof.Machine

/-- `be32`: four bytes as a word, first byte most significant (00_scope.md R7). -/
def be32 (b0 b1 b2 b3 : Byte) : Word := b0 ++ b1 ++ b2 ++ b3

/-- `be32_bytes`: the four bytes of a word, most significant first (00_scope.md R7). -/
def be32Bytes (v : Word) : List Byte :=
  [v.extractLsb' 24 8, v.extractLsb' 16 8, v.extractLsb' 8 8, v.extractLsb' 0 8]

/-- `be64_bytes`: the eight bytes of a 64-bit value, most significant first (00_scope.md R7). -/
def be64Bytes (v : Count) : List Byte :=
  [v.extractLsb' 56 8, v.extractLsb' 48 8, v.extractLsb' 40 8, v.extractLsb' 32 8,
   v.extractLsb' 24 8, v.extractLsb' 16 8, v.extractLsb' 8 8, v.extractLsb' 0 8]

/-- `zeros(n)`: `n` bytes of `0x00` (00_scope.md R5). -/
def zeros (n : Nat) : List Byte := List.replicate n 0x00

/-- `8 · zext_64(LEN)`: the bits a payload adds to the message length (30_encoding.md R43, 42_finalize.md R79). -/
def payloadBits (len : Byte) : Count := 8 * len.setWidth 64

/-- The number of zero bytes of the padding, for a payload of `n <= 63` bytes (42_finalize.md R80). -/
def zeroCount (n : Nat) : Nat := if n ≤ 55 then 55 - n else 119 - n

/-- The padded tail of a payload for message length `L` (42_finalize.md R80). -/
def paddedTail (p : List Byte) (L : Count) : List Byte :=
  p ++ [0x80] ++ zeros (zeroCount p.length) ++ be64Bytes L

/-- The digest bytes of an accumulator: the five words in index order, each big-endian (42_finalize.md R86). -/
def digestBytes (a : Accum) : List Byte :=
  be32Bytes a.acc0 ++ be32Bytes a.acc1 ++ be32Bytes a.acc2 ++ be32Bytes a.acc3 ++ be32Bytes a.acc4

end Sys2Proof.Machine
end

