-- ==== Sys2Proof/Machine/Datapath.lean ====
section
/-! DEFINITION. The word datapath and the compression function (40_datapath.md). `compress` is the spec's `COMPRESS`; the
values here are transient (10_state.md R20). -/

namespace Sys2Proof.Machine

/-- The accumulator's initial constants (10_state.md R11). -/
def initialAccum : Accum := ⟨0x67452301, 0xEFCDAB89, 0x98BADCFE, 0x10325476, 0xC3D2E1F0⟩

/-- `ROTL(x, n)`, for `n` in 1 to 31 (40_datapath.md R55). -/
def rotl (x : Word) (n : Nat) : Word := x <<< n ||| x >>> (32 - n)

/-- Schedule load: the bytes of a block, four at a time, each big-endian (40_datapath.md R58). -/
def scheduleLoad : List Byte → List Word
  | b0 :: b1 :: b2 :: b3 :: rest => be32 b0 b1 b2 b3 :: scheduleLoad rest
  | _ => []

/-- The next schedule word from the earlier ones, LATEST FIRST: `SCHED[i−3]` stands at index 2, `SCHED[i−8]` at 7,
`SCHED[i−14]` at 13, `SCHED[i−16]` at 15 (40_datapath.md R59). The default 0 is never used: 16 words stand there. -/
def nextWord (earlier : List Word) : Word :=
  rotl (earlier.getD 2 0 ^^^ earlier.getD 7 0 ^^^ earlier.getD 13 0 ^^^ earlier.getD 15 0) 1

/-- `n` more schedule words, latest first (40_datapath.md R59). -/
def scheduleExpand : Nat → List Word → List Word
  | 0, earlier => earlier
  | n + 1, earlier => scheduleExpand n (nextWord earlier :: earlier)

/-- `SCHED[0..79]` of a 64-byte block (40_datapath.md R58, R59). -/
def schedule (block : List Byte) : List Word := (scheduleExpand (Config.schedWords - 16) (scheduleLoad block).reverse).reverse

/-- The round function `f(i, b, c, d)` (40_datapath.md R60). -/
def roundF (i : Nat) (b c d : Word) : Word :=
  if i < 20 then (b &&& c) ||| (~~~b &&& d)
  else if i < 40 then b ^^^ c ^^^ d
  else if i < 60 then (b &&& c) ||| (b &&& d) ||| (c &&& d)
  else b ^^^ c ^^^ d

/-- The round constant `k(i)` (40_datapath.md R61). -/
def roundK (i : Nat) : Word :=
  if i < 20 then 0x5A827999
  else if i < 40 then 0x6ED9EBA1
  else if i < 60 then 0x8F1BBCDC
  else 0xCA62C1D6

/-- The working registers (40_datapath.md R62). -/
structure Working where
  a : Word
  b : Word
  c : Word
  d : Word
  e : Word
deriving DecidableEq, Repr

/-- Seeding from the accumulator (40_datapath.md R62). -/
def seed (s : Accum) : Working := ⟨s.acc0, s.acc1, s.acc2, s.acc3, s.acc4⟩

/-- Round `i` with schedule word `w` (40_datapath.md R63). -/
def runRound (i : Nat) (r : Working) (w : Word) : Working :=
  { a := rotl r.a 5 + roundF i r.b r.c r.d + r.e + roundK i + w
    b := r.a
    c := rotl r.b 30
    d := r.c
    e := r.d }

/-- The rounds from index `i` on, one for each schedule word (40_datapath.md R63). -/
def runRounds : Nat → List Word → Working → Working
  | _, [], r => r
  | i, w :: ws, r => runRounds (i + 1) ws (runRound i r w)

/-- Feedback: each register added to its own accumulator word (40_datapath.md R64). -/
def feedback (s : Accum) (r : Working) : Accum :=
  ⟨s.acc0 + r.a, s.acc1 + r.b, s.acc2 + r.c, s.acc3 + r.d, s.acc4 + r.e⟩

/-- `COMPRESS(S, B)` (40_datapath.md R65). -/
def compress (s : Accum) (block : List Byte) : Accum :=
  feedback s (runRounds 0 (schedule block) (seed s))

end Sys2Proof.Machine
end

