-- ==== Sys2Proof/Machine/Flags.lean ====
section
/-! DEFINITION. The engine has no flags, condition codes or predicates (10_state.md R18): what stands in their place is the
status byte of a response (30_encoding.md R46, R47), the numeric value of `PHASE` (10_state.md R14) and the one detected
overflow (60_exceptions.md R110). -/

namespace Sys2Proof.Machine

/-- `OK`: the status byte of an executed command (30_encoding.md R47). -/
def statusOk : Byte := 0x00

/-- The code of a fault: its status byte and the value of `ERRCODE` (30_encoding.md R47, 60_exceptions.md R105). -/
def FaultCode.byte : FaultCode → Byte
  | .opcode => 0x01
  | .length => 0x02
  | .phase => 0x03
  | .overflow => 0x04

/-- The value of `PHASE` (10_state.md R14). -/
def Stage.phase : Stage → Phase
  | .idle => .idle
  | .active _ => .active
  | .frozen _ => .frozen
  | .fault => .fault

/-- The two bits of `PHASE` (10_state.md R14). -/
def Phase.bits : Phase → BitVec 2
  | .idle => 0b00
  | .active => 0b01
  | .frozen => 0b10
  | .fault => 0b11

/-- `PHASE` (10_state.md R14). -/
def State.phase (s : State) : Phase := s.stage.phase

/-- The `DigestState`, where one exists: in `ACTIVE` and `FROZEN` (10_state.md R14). -/
def Stage.digestState : Stage → Option DigestState
  | .idle => none
  | .active d => some d
  | .frozen d => some d
  | .fault => none

/-- `ACC[0..4]`, where they hold a value (10_state.md R10, R14). -/
def State.acc (s : State) : Option Accum := s.stage.digestState.map (·.acc)

/-- `BITLEN`, where it holds a value (10_state.md R12, R14). -/
def State.bitlen (s : State) : Option Count := s.stage.digestState.map (·.bitlen)

/-- The count has room for `bits` more: the sum, taken in the naturals, does not pass `2^64 − 1` (60_exceptions.md R110). -/
def hasRoom (bitlen : Count) (bits : Nat) : Bool := bitlen.toNat + bits ≤ Config.maxMsgBits

end Sys2Proof.Machine
end

