-- ==== Sys2Proof/Machine/Ops.lean ====
section
/-! DEFINITION. The named operations over the state: the block buffer (`MemRead`, `MemWrite`), the streams (`CmdRead`,
`RespWrite`), fault entry and hardware reset, the checks of a command in their order, and the fold of blocks through `BUF`
(00_scope.md R8). -/

namespace Sys2Proof.Machine

/-- What executing a command answers. -/
abbrev Out := Host.Outcome State Fault Refusal

/-! ### The block buffer -/

/-- The addresses rise strictly and lie in `BUF[0..63]` (20_memory.md R25). No cell can hold what an unlisted address reads
as, since an unlisted address holds no value (log entry 2): equal contents are equal lists. -/
abbrev Memory.wf (m : Memory) : Prop :=
  m.Pairwise (fun x y => x.1 < y.1) ∧ ∀ c ∈ m, c.1 < Config.blockBytes

/-- The byte an address holds; none where nothing has been written since reset. -/
def readByte : Memory → Nat → Option Byte
  | [], _ => none
  | (a, b) :: m, x => if a = x then some b else readByte m x

/-- Store a byte, keeping the addresses rising. -/
def writeByte : Memory → Nat → Byte → Memory
  | [], x, v => [(x, v)]
  | (a, b) :: m, x, v =>
    if x < a then (x, v) :: (a, b) :: m
    else if x = a then (x, v) :: m
    else (a, b) :: writeByte m x v

/-- The `n` bytes from an address on. -/
def readBytes (m : Memory) : Nat → Nat → Option (List Byte)
  | _, 0 => some []
  | x, n + 1 =>
    match readByte m x, readBytes m (x + 1) n with
    | some b, some bs => some (b :: bs)
    | _, _ => none

/-- The `n` bytes from an address on hold no value any more. -/
def releaseBytes (m : Memory) (x n : Nat) : Memory := m.filter fun c => c.1 < x || x + n ≤ c.1

/-- Store bytes from an address on. -/
def writeBytes : Memory → Nat → List Byte → Memory
  | m, _, [] => m
  | m, x, b :: bs => writeBytes (writeByte m x b) (x + 1) bs

/-- `MemRead(addr, n)`, `addr + n <= 64` (00_scope.md R8). -/
def memRead (m : Memory) (addr n : Nat) : Except Fault (List Byte) :=
  if addr + n ≤ Config.blockBytes then
    match readBytes m addr n with
    | some bs => .ok bs
    | none => .error .bufferUnwritten
  else .error .bufferRange

/-- `MemWrite(addr, n, v)`, `addr + n <= 64`, `n` being the length of `v` (00_scope.md R8). -/
def memWrite (m : Memory) (addr : Nat) (v : List Byte) : Except Fault Memory :=
  if addr + v.length ≤ Config.blockBytes then .ok (writeBytes m addr v)
  else .error .bufferRange

/-- The address `BLOCK` and `FINAL` store their blocks from: `MemWrite(0, 64, ...)`, "always the whole buffer from byte 0"
(44_absent_classes.md R104). -/
def blockAddr : Nat := 0

/-- The end of a command that used the buffer: "`BUF`, `SCHED`, `a`..`e`, `temp`, `TAIL` are not observable and hold nothing
between commands" (92_eei_decisions.md D15; 10_state.md R19; log entry 3). -/
def releaseBlock (m : Memory) : Memory := releaseBytes m blockAddr Config.blockBytes

/-- One block through the buffer: `MemWrite(0, 64, P)`, then `COMPRESS(ACC, BUF)` (41_absorb.md R72, 42_finalize.md R82). -/
def foldBlock (acc : Accum) (buf : Memory) (block : List Byte) : Except Fault (Accum × Memory) :=
  match memWrite buf blockAddr block with
  | .error f => .error f
  | .ok buf' =>
    match memRead buf' blockAddr Config.blockBytes with
    | .error f => .error f
    | .ok b => .ok (compress acc b, buf')

/-- The one or two blocks of a padded tail, in order (42_finalize.md R82, R84). -/
def foldTail (acc : Accum) (buf : Memory) (tail : List Byte) : Except Fault (Accum × Memory) :=
  match foldBlock acc buf (tail.take Config.blockBytes) with
  | .error f => .error f
  | .ok (acc', buf') =>
    if tail.length = Config.tailMax then foldBlock acc' buf' (tail.drop Config.blockBytes)
    else .ok (acc', buf')

/-! ### Registers and streams -/

/-- Write `PHASE` with the registers that hold a value in it. -/
def State.setStage (s : State) (x : Stage) : State := { s with stage := x }

/-- Write `ERRCODE`. -/
def State.setErrcode (s : State) (x : Byte) : State := { s with errcode := x }

/-- Write the block buffer. -/
def State.setBuf (s : State) (m : Memory) : State := { s with buf := m }

/-- What is left of the command stream after `CmdRead` (20_memory.md R26). -/
def State.setCmd (s : State) (bytes : List Byte) : State := { s with cmd := bytes }

/-- `RespWrite`: append to the response stream (20_memory.md R27). -/
def State.respond (s : State) (bytes : List Byte) : State := { s with resp := s.resp ++ bytes }

/-! ### Fault entry and reset -/

/-- Fault entry (60_exceptions.md R112): `ERRCODE` takes the code, `PHASE` becomes `FAULT`, `ACC` and `BITLEN` hold no value
from here on, the response is the code. Nothing is saved. -/
def takeFault (c : FaultCode) (s : State) : State :=
  ((s.setErrcode c.byte).setStage .fault).respond [c.byte]

/-- `raise Fault(code)`: fault entry is the whole effect of the command (00_scope.md R8, 60_exceptions.md R116). -/
def raise (c : FaultCode) (s : State) : Out := .next (takeFault c s)

/-- Hardware reset, "the only way to leave `FAULT`": there is no return from a fault (70_reset_and_hazards.md R120,
60_exceptions.md R114). An event from outside, between commands (R121); it keeps nothing of the state. -/
def hardwareReset (_ : State) : State := State.reset

/-! ### The checks of a command, in the order of 60_exceptions.md R111 -/

/-- In `FAULT` nothing is executed (60_exceptions.md R113). -/
def unlessFault (s : State) (body : Out) : Out :=
  match s.stage with
  | .fault => .next s
  | .idle => body
  | .active _ => body
  | .frozen _ => body

/-- `E_LENGTH` unless the payload length is legal (60_exceptions.md R107). -/
def requireLength (legal : Bool) (s : State) (body : Out) : Out :=
  if legal then body else raise .length s

/-- `E_PHASE` unless `PHASE = ACTIVE` (60_exceptions.md R108). -/
def requireActive (s : State) (body : DigestState → Out) : Out :=
  match s.stage with
  | .active d => body d
  | .idle => raise .phase s
  | .frozen _ => raise .phase s
  | .fault => raise .phase s

/-- `E_PHASE` unless `PHASE = FROZEN` (60_exceptions.md R108). -/
def requireFrozen (s : State) (body : DigestState → Out) : Out :=
  match s.stage with
  | .frozen d => body d
  | .idle => raise .phase s
  | .active _ => raise .phase s
  | .fault => raise .phase s

/-- `E_OVERFLOW` unless `BITLEN` has room for `bits` more (60_exceptions.md R110). -/
def requireRoom (d : DigestState) (bits : Nat) (s : State) (body : Out) : Out :=
  if hasRoom d.bitlen bits then body else raise .overflow s

end Sys2Proof.Machine
end

