-- ==== Sys2Proof/Machine/Absorb.lean ====
section
/-! DEFINITION. The commands INIT and BLOCK (41_absorb.md). -/

namespace Sys2Proof.Machine

/-- `INIT` (41_absorb.md R70): from every phase but `FAULT`, a fresh `DigestState`, independent of what was there (R71). -/
def execInit (s : State) : Out :=
  unlessFault s (.next ((s.setStage (.active ⟨initialAccum, 0⟩)).respond [statusOk]))

/-- The effect of an accepted `BLOCK` (41_absorb.md R72); `BUF` holds nothing afterwards (10_state.md R19). -/
def absorbBlock (p : List Byte) (d : DigestState) (s : State) : Out :=
  match foldBlock d.acc s.buf p with
  | .error f => .fault f
  | .ok (acc, buf) =>
    .next (((s.setBuf (releaseBlock buf)).setStage (.active ⟨acc, d.bitlen + 512⟩)).respond [statusOk])

/-- `BLOCK` (41_absorb.md R72): the checks in their order, then the fold of one block. -/
def execBlock (p : List Byte) (s : State) : Out :=
  unlessFault s <|
  requireLength (p.length == Config.blockBytes) s <|
  requireActive s fun d =>
  requireRoom d Config.blockBits s <|
  absorbBlock p d s

end Sys2Proof.Machine
end

