-- ==== Sys2Proof/Machine/Finalize.lean ====
section
/-! DEFINITION. The commands FINAL and EXTRACT (42_finalize.md). -/

namespace Sys2Proof.Machine

/-- The effect of an accepted `FINAL` (42_finalize.md R82): `BITLEN` becomes the message length `L` (R79), the one or two
blocks of the padded tail go through `COMPRESS` and add nothing to it, and `BUF` holds nothing afterwards (R19). -/
def finishDigest (p : List Byte) (d : DigestState) (s : State) : Out :=
  let L := d.bitlen + payloadBits (Instr.final p).len
  match foldTail d.acc s.buf (paddedTail p L) with
  | .error f => .fault f
  | .ok (acc, buf) =>
    .next (((s.setBuf (releaseBlock buf)).setStage (.frozen ⟨acc, L⟩)).respond [statusOk])

/-- `FINAL` (42_finalize.md R82): the checks in their order, then the padded tail. -/
def execFinal (p : List Byte) (s : State) : Out :=
  unlessFault s <|
  requireLength (p.length ≤ Config.finalMax) s <|
  requireActive s fun d =>
  requireRoom d (8 * p.length) s <|
  finishDigest p d s

/-- `EXTRACT` (42_finalize.md R86): the 20 digest bytes go out, and the `DigestState` is discarded. -/
def execExtract (s : State) : Out :=
  unlessFault s <|
  requireFrozen s fun d =>
  .next ((s.setStage .idle).respond (statusOk :: digestBytes d.acc))

end Sys2Proof.Machine
end

