-- ==== Sys2Proof/Machine/Dispatch.lean ====
section
/-! DEFINITION. One arm for each command (30_encoding.md R42). -/

namespace Sys2Proof.Machine

def exec (i : Instr) (s : State) : Host.Outcome State Fault Refusal :=
  match i with
  | .init => Sys2Proof.Machine.execInit s
  | .block p => Sys2Proof.Machine.execBlock p s
  | .final p => Sys2Proof.Machine.execFinal p s
  | .extract => Sys2Proof.Machine.execExtract s

end Sys2Proof.Machine
end

