-- ==== Sys2Proof/Machine/Fetch.lean ====
section
/-! DEFINITION. What the engine takes from the command stream next (30_encoding.md R50, R53; 60_exceptions.md R113). -/

namespace Sys2Proof.Machine

/-- The next thing the engine does, with what it leaves of the command stream. -/
inductive Fetched where
  /-- In `FAULT`: every pending byte is discarded without decoding (60_exceptions.md R113). -/
  | discard
  /-- Fewer bytes than the packet needs: the engine waits (30_encoding.md R53). -/
  | wait
  /-- A fault found on the command word alone (60_exceptions.md R106, R107). -/
  | raise (c : FaultCode) (rest : List Byte)
  /-- A whole legal packet has been taken (20_memory.md R26). -/
  | run (i : Instr) (rest : List Byte)
deriving DecidableEq, Repr

/-- What the decoder finds, as the next thing to do (30_encoding.md R50). -/
def fetchPacket (bytes : List Byte) : Fetched :=
  match decode bytes with
  | .packet i rest => .run i rest
  | .incomplete => .wait
  | .reservedOp rest => .raise .opcode rest
  | .illegalLen rest => .raise .length rest

/-- Look at the front of the command stream; in `FAULT` nothing is decoded (30_encoding.md R50). -/
def fetch (s : State) : Fetched :=
  match s.stage with
  | .fault => .discard
  | .idle => fetchPacket s.cmd
  | .active _ => fetchPacket s.cmd
  | .frozen _ => fetchPacket s.cmd

end Sys2Proof.Machine
end

