-- ==== Sys2Proof/Machine/Step.lean ====
section
/-! DEFINITION. One step of the engine: one whole packet (00_scope.md R9, 30_encoding.md R50). -/

namespace Sys2Proof.Machine

/-- One turn of the decode loop (30_encoding.md R50). Waiting for the rest of a packet changes nothing (R53). -/
def step (s : State) : Host.Outcome State Fault Refusal :=
  match fetch s with
  | .discard => .next (s.setCmd [])
  | .wait => .next s
  | .raise c rest => raise c (s.setCmd rest)
  | .run i rest => exec i (s.setCmd rest)

/-- The state with the packet of a table word at the front of the command stream, where `step` takes its next command from
(log entries 11 and 12). -/
def State.withFetchWord (s : State) (nbits w : Nat) : State := s.setCmd (tablePacket nbits w ++ s.cmd)

end Sys2Proof.Machine
end

