-- ==== Sys2Proof/Machine/HostSide.lean ====
section
/-! DEFINITION. What the host can do to an engine beside letting it run (43_digest_driver.md R102): append to the command
stream, take from the response stream, assert hardware reset. -/

namespace Sys2Proof.Machine

/-- The host appends bytes to the command stream, at any time (20_memory.md R26, R36). -/
def hostAppend (bytes : List Byte) (s : State) : State := s.setCmd (s.cmd ++ bytes)

/-- The first `n` bytes of the response stream, which the host takes (20_memory.md R27). -/
def hostTaken (n : Nat) (s : State) : List Byte := s.resp.take n

/-- The state after the host has taken `n` bytes of the response stream: "reading has no effect on the engine"
(20_memory.md R27). -/
def hostTake (n : Nat) (s : State) : State := { s with resp := s.resp.drop n }

/-- The bytes a step has appended to the response stream. -/
def newBytes (before after : State) : List Byte := after.resp.drop before.resp.length

/-- An event at one engine: a step of its own, or something the host does between steps (70_reset_and_hazards.md R121). -/
inductive HostEvent where
  | run
  | append (bytes : List Byte)
  | take (n : Nat)
  | reset
deriving DecidableEq, Repr

/-- One event at one engine. -/
def applyEvent (e : HostEvent) (s : State) : Out :=
  match e with
  | .run => step s
  | .append bytes => .next (hostAppend bytes s)
  | .take n => .next (hostTake n s)
  | .reset => .next (hardwareReset s)

/-- A sequence of events at one engine. -/
def applyEvents : List HostEvent → State → Out
  | [], s => .next s
  | e :: es, s =>
    match applyEvent e s with
    | .next t => applyEvents es t
    | .fault f => .fault f
    | .refused r => .refused r

end Sys2Proof.Machine
end

