-- ==== Sys2Proof/Machine/Digest.lean ====
section
/-! DEFINITION. The host-side pseudo-instruction DIGEST, the byte-stream source, the closed form of the digest and the hex
form (43_digest_driver.md). None of it is the engine's: it drives the engine through `hostAppend`, `step` and the responses. -/

namespace Sys2Proof.Machine

/-! ### The byte-stream source (43_digest_driver.md R90) -/

/-- A free choice of the source at one read: how many bytes it is willing to return, or failure (R90; log entry 15). -/
inductive ReadChoice where
  | count (n : Nat)
  | ioError
deriving DecidableEq, Repr

/-- A source: what it has not yet delivered, and its choices at the coming reads. A script that has run out leaves full
reads. -/
structure Source where
  rest : List Byte
  script : List ReadChoice
deriving DecidableEq, Repr

/-- What a read returns. -/
inductive ReadResult where
  | bytes (g : List Byte)
  | ioError
deriving DecidableEq, Repr

/-- "An in-memory byte sequence `m` is the source with `rest = m` that never returns `IOError`" (R90). -/
def Source.ofBytes (m : List Byte) : Source := ⟨m, []⟩

/-- How many bytes a read asked for `n` delivers under a choice: from 1 to `min(n, len(rest))` while bytes remain, 0 only at
exhaustion (R90). -/
def deliverCount (wish n left : Nat) : Nat := min (max wish 1) (min n left)

/-- `read(N)` (R90). A read that fails delivers nothing and takes nothing from `rest`, and later reads go on with the script:
R90 leaves both open (log entry 15). -/
def Source.read (src : Source) (n : Nat) : ReadResult × Source :=
  match src.script with
  | [] =>
    let k := min n src.rest.length
    (.bytes (src.rest.take k), ⟨src.rest.drop k, []⟩)
  | .count wish :: script =>
    let k := deliverCount wish n src.rest.length
    (.bytes (src.rest.take k), ⟨src.rest.drop k, script⟩)
  | .ioError :: script => (.ioError, ⟨src.rest, script⟩)

/-! ### The loop (43_digest_driver.md R91, R92) -/

/-- `min(64 − len(chunk), remaining)`, the argument of a read; `none` is `unbounded` (R91, R92). -/
def askFor (gathered : Nat) (remaining : Option Nat) : Nat :=
  match remaining with
  | none => Config.blockBytes - gathered
  | some r => min (Config.blockBytes - gathered) r

/-- What the inner loop ends with. -/
inductive Gathered where
  | chunk (bytes : List Byte) (src : Source) (remaining : Option Nat)
  | ioError
deriving DecidableEq, Repr

/-- The inner loop: fill one block however the source splits its reads (R92). Each turn gathers at least one byte or ends
the loop, so 64 turns are enough (log entry 17). -/
def gatherChunk : Nat → Source → Option Nat → List Byte → Gathered
  | 0, src, remaining, chunk => .chunk chunk src remaining
  | turns + 1, src, remaining, chunk =>
    if chunk.length < Config.blockBytes ∧ remaining ≠ some 0 then
      match src.read (askFor chunk.length remaining) with
      | (.ioError, _) => .ioError
      | (.bytes g, src') =>
        if g = [] then .chunk chunk src' remaining
        else gatherChunk turns src' (remaining.map (· - g.length)) (chunk ++ g)
    else .chunk chunk src remaining

/-- The commands the host issues, and whether it stopped at an `IOError` (R92, R94). -/
structure DigestPlan where
  cmds : List Instr
  ioError : Bool
deriving DecidableEq, Repr

/-- The outer loop: `BLOCK` for every full chunk, then `FINAL` and `EXTRACT` (R92). Every turn but the last takes 64 bytes
(log entry 17). -/
def digestLoop : Nat → Source → Option Nat → DigestPlan
  | 0, _, _ => ⟨[], false⟩
  | turns + 1, src, remaining =>
    match gatherChunk Config.blockBytes src remaining [] with
    | .ioError => ⟨[], true⟩
    | .chunk c src' remaining' =>
      if c.length = Config.blockBytes then
        let later := digestLoop turns src' remaining'
        ⟨.block c :: later.cmds, later.ioError⟩
      else ⟨[.final c, .extract], false⟩

/-- The command sequence of `DIGEST(src, limit)` (R92). -/
def digestPlan (src : Source) (limit : Option Nat) : DigestPlan :=
  let plan := digestLoop (src.rest.length / Config.blockBytes + 1) src limit
  ⟨.init :: plan.cmds, plan.ioError⟩

/-! ### Issuing commands to an engine -/

/-- Issue one command: append its packet, let the engine take one step, and read off the response that belongs to it
(20_memory.md R35 (b)). It presumes that no earlier packet is pending: R92 does not say what the command stream holds when
`DIGEST` starts. It looks at the response and leaves it in the response stream: R92 and 20_memory.md R27 do not say whether
`DIGEST` takes it (log entry 16). -/
def issue (i : Instr) (s : State) : Host.Outcome (List Byte × State) Fault Refusal :=
  match step (hostAppend (encode i) s) with
  | .next t => .next (newBytes s t, t)
  | .fault f => .fault f
  | .refused r => .refused r

/-- Issue commands in order; the responses in the same order. -/
def issueAll : List Instr → State → Host.Outcome (List (List Byte) × State) Fault Refusal
  | [], s => .next ([], s)
  | i :: is, s =>
    match issue i s with
    | .next (r, t) =>
      match issueAll is t with
      | .next (rs, u) => .next (r :: rs, u)
      | .fault f => .fault f
      | .refused x => .refused x
    | .fault f => .fault f
    | .refused x => .refused x

/-- The result of `DIGEST`: the 20 bytes; `NoDigest` after an `IOError` (43_digest_driver.md R94); or `noResponse` where it never
returns, the engine being in `FAULT` (R100, R101; log entry 16). -/
inductive DigestResult where
  | digest (d : List Byte)
  | noDigest
  | noResponse
deriving DecidableEq, Repr

/-- The digest in the response to `EXTRACT` (30_encoding.md R46). -/
def digestOfResponse : List Byte → DigestResult
  | status :: d => if status = statusOk ∧ d.length = Config.digestBytes then .digest d else .noResponse
  | [] => .noResponse

/-- The result from the responses to the commands issued. Where one of them is not `OK` the engine is in `FAULT` and `DIGEST`
returns nothing, whether or not the source has failed (R100, R101). -/
def digestResult (ioError : Bool) (rs : List (List Byte)) : DigestResult :=
  if rs.all fun r => r.head? == some statusOk then
    if ioError then .noDigest else digestOfResponse (rs.getLastD [])
  else .noResponse

/-- `DIGEST(src, limit)` on an engine (43_digest_driver.md R92) whose command stream is empty, see `issue`. -/
def runDigest (src : Source) (limit : Option Nat) (s : State) : Host.Outcome (DigestResult × State) Fault Refusal :=
  let plan := digestPlan src limit
  match issueAll plan.cmds s with
  | .next (rs, t) =>
    .next (digestResult plan.ioError rs, t)
  | .fault f => .fault f
  | .refused x => .refused x

/-! ### The closed form (43_digest_driver.md R93) -/

/-- `bytes[64k .. 64k+64)`. -/
def blockAt (bytes : List Byte) (k : Nat) : List Byte := (bytes.drop (Config.blockBytes * k)).take Config.blockBytes

/-- The full 64-byte blocks of a byte sequence, in order; a shorter rest is left out. -/
def fullBlocks (bytes : List Byte) : List (List Byte) :=
  (List.range (bytes.length / Config.blockBytes)).map (blockAt bytes)

/-- The commands `DIGEST` issues for an in-memory message (30_encoding.md R52, 43_digest_driver.md R93). -/
def digestCommands (m : List Byte) : List Instr :=
  .init :: (fullBlocks m).map .block
    ++ [.final (m.drop (Config.blockBytes * (m.length / Config.blockBytes))), .extract]

/-- `padded` of R93: `m ++ [0x80] ++ zeros((55 − N) mod 64) ++ be64_bytes(8 · N)`. For a message beyond `MAX_MSG_BITS` R93 gives no value,
`8 · N` being no 64-bit value there; this definition reduces it modulo 2^64 (log entry 21). -/
def paddedMessage (m : List Byte) : List Byte :=
  m ++ [0x80] ++ zeros (zeroCount (m.length % Config.blockBytes)) ++ be64Bytes (BitVec.ofNat 64 (8 * m.length))

/-- `digest(m)` of R93: the blocks of the padded message folded into the initial constants, serialised. -/
def digestSpec (m : List Byte) : List Byte :=
  digestBytes ((fullBlocks (paddedMessage m)).foldl compress initialAccum)

/-! ### The hex form (43_digest_driver.md R95) -/

/-- The hex digit of a nibble, lower case (R95). -/
def hexDigit (n : BitVec 4) : Char :=
  if n.toNat < 10 then Char.ofNat (48 + n.toNat) else Char.ofNat (87 + n.toNat)

/-- The two characters of a byte, high nibble first (R95). -/
def hexByte (b : Byte) : List Char := [hexDigit (b.extractLsb' 4 4), hexDigit (b.extractLsb' 0 4)]

/-- The hex form of a digest (R95). -/
def hexForm (d : List Byte) : List Char := d.flatMap hexByte

end Sys2Proof.Machine
end

