-- ==== Sys2Proof/Machine/Assembler.lean ====
section
/-! DEFINITION. The assembler syntax, the assembler and the disassembler (30_encoding.md R51, R52, R54). Host-side text, not
the engine's. Text is a list of characters. -/

namespace Sys2Proof.Machine

/-! ### Abstract syntax (30_encoding.md R51) -/

/-- `bytes`: hex pairs, printable ASCII, or a repeated sequence. -/
inductive AsmBytes where
  | hex (bytes : List Byte)
  | ascii (chars : List Char)
  | repeated (b : AsmBytes) (times : Nat)
deriving DecidableEq, Repr

/-- `command`. `raw` is the directive `.cmd`, `digest` the pseudo-instruction (R52). -/
inductive AsmCommand where
  | init
  | block (b : AsmBytes)
  | final (b : AsmBytes)
  | extract
  | raw (word : CmdWord) (b : Option AsmBytes)
  | digest (b : AsmBytes)
deriving DecidableEq, Repr

/-- Why the assembler rejects a line. -/
inductive AsmError where
  /-- The line is not of the grammar. -/
  | notGrammar
  /-- "it rejects a `BLOCK` whose bytes are not 64" (R51). -/
  | blockNot64
  /-- "and a `FINAL` whose bytes are more than 63" (R51). -/
  | finalOver63
deriving DecidableEq, Repr

/-- A sequence repeated. -/
def repeatBytes (bs : List Byte) : Nat → List Byte
  | 0 => []
  | n + 1 => bs ++ repeatBytes bs n

/-- The byte sequence `bytes` denotes (R51): for ASCII "one byte per character, its ASCII code". -/
def AsmBytes.denote : AsmBytes → List Byte
  | .hex bs => bs
  | .ascii cs => cs.map fun c => BitVec.ofNat 8 c.toNat
  | .repeated b n => repeatBytes b.denote n

/-- The two bytes of a command word (30_encoding.md R45). -/
def cmdWordBytes (cw : CmdWord) : List Byte := [CmdWord.op cw, CmdWord.len cw]

/-- The bytes one command assembles to (R51, R52): the assembler computes `LEN`; `.cmd` emits what it is given. -/
def assemble : AsmCommand → Except AsmError (List Byte)
  | .init => .ok (encode .init)
  | .block b => if b.denote.length = Config.blockBytes then .ok (encode (.block b.denote)) else .error .blockNot64
  | .final b => if b.denote.length ≤ Config.finalMax then .ok (encode (.final b.denote)) else .error .finalOver63
  | .extract => .ok (encode .extract)
  | .raw cw none => .ok (cmdWordBytes cw)
  | .raw cw (some b) => .ok (cmdWordBytes cw ++ b.denote)
  | .digest b => .ok ((digestCommands b.denote).flatMap encode)

/-! ### Reading text -/

/-- Drop spaces and tabs (log entry 14). -/
def skipBlanks : List Char → List Char
  | ' ' :: cs => skipBlanks cs
  | '\t' :: cs => skipBlanks cs
  | cs => cs

/-- The value of a hex digit, either case (log entry 14). -/
def hexValue (c : Char) : Option (BitVec 4) :=
  let n := c.toNat
  if 48 ≤ n ∧ n ≤ 57 then some (BitVec.ofNat 4 (n - 48))
  else if 97 ≤ n ∧ n ≤ 102 then some (BitVec.ofNat 4 (n - 87))
  else if 65 ≤ n ∧ n ≤ 70 then some (BitVec.ofNat 4 (n - 55))
  else none

/-- Hex pairs up to the closing quotation mark. -/
def readHexPairs : List Char → Option (List Byte × List Char)
  | [] => none
  | [c] => if c = '"' then some ([], []) else none
  | c :: d :: cs =>
    if c = '"' then some ([], d :: cs)
    else
      match hexValue c, hexValue d, readHexPairs cs with
      | some h, some l, some (bs, rest) => some ((h ++ l : Byte) :: bs, rest)
      | _, _, _ => none

/-- A printable ASCII character. -/
def printable (c : Char) : Bool := 32 ≤ c.toNat && c.toNat ≤ 126

/-- ASCII characters up to the closing quotation mark, which therefore cannot be one of them (log entry 14). -/
def readAscii : List Char → Option (List Char × List Char)
  | [] => none
  | c :: cs =>
    if c = '"' then some ([], cs)
    else if printable c then
      match readAscii cs with
      | some (s, rest) => some (c :: s, rest)
      | none => none
    else none

/-- The value of a decimal digit. -/
def decValue (c : Char) : Option Nat :=
  if 48 ≤ c.toNat ∧ c.toNat ≤ 57 then some (c.toNat - 48) else none

/-- More digits of a decimal number. -/
def readDigits : Nat → List Char → Nat × List Char
  | n, [] => (n, [])
  | n, c :: cs =>
    match decValue c with
    | some d => readDigits (10 * n + d) cs
    | none => (n, c :: cs)

/-- A decimal number, at least one digit. -/
def readDecimal : List Char → Option (Nat × List Char)
  | [] => none
  | c :: cs =>
    match decValue c with
    | some d => some (readDigits d cs)
    | none => none

/-- `bytes` repeated any number of times: `bytes "*" decimal` (R51). One turn for each `*`. -/
def readRepeats : Nat → AsmBytes → List Char → Option (AsmBytes × List Char)
  | 0, b, cs => some (b, cs)
  | turns + 1, b, cs =>
    match skipBlanks cs with
    | '*' :: rest =>
      match readDecimal (skipBlanks rest) with
      | some (n, rest') => readRepeats turns (.repeated b n) rest'
      | none => none
    | _ => some (b, cs)

/-- `bytes` (R51). -/
def readBytesText (cs : List Char) : Option (AsmBytes × List Char) :=
  match skipBlanks cs with
  | 'x' :: '"' :: rest =>
    match readHexPairs rest with
    | some (bs, rest') => readRepeats rest'.length (.hex bs) rest'
    | none => none
  | '"' :: rest =>
    match readAscii rest with
    | some (s, rest') => readRepeats rest'.length (.ascii s) rest'
    | none => none
  | _ => none

/-- `hex16` (R51). -/
def readHex16 (cs : List Char) : Option (CmdWord × List Char) :=
  match skipBlanks cs with
  | '0' :: 'x' :: a :: b :: c :: d :: rest =>
    match hexValue a, hexValue b, hexValue c, hexValue d with
    | some a, some b, some c, some d => some ((a ++ b ++ c ++ d : CmdWord), rest)
    | _, _, _, _ => none
  | _ => none

/-- What is left of a text behind a given word. -/
def dropWord : List Char → List Char → Option (List Char)
  | [], cs => some cs
  | _ :: _, [] => none
  | w :: ws, c :: cs => if w = c then dropWord ws cs else none

/-- The line ends here, or a comment begins (R51). -/
def lineEnds (cs : List Char) : Bool :=
  match skipBlanks cs with
  | [] => true
  | c :: _ => c == ';'

/-- A command with nothing behind it but blanks and a comment. -/
def endedBy (c : AsmCommand) (rest : List Char) : Option AsmCommand :=
  if lineEnds rest then some c else none

/-- A command with `bytes` behind its mnemonic. -/
def withBytes (f : AsmBytes → AsmCommand) (cs : List Char) : Option AsmCommand :=
  match readBytesText cs with
  | some (b, rest) => endedBy (f b) rest
  | none => none

/-- `.cmd hex16 [ bytes ]` (R51). -/
def readRaw (cs : List Char) : Option AsmCommand :=
  match readHex16 cs with
  | some (cw, rest) =>
    if lineEnds rest then some (.raw cw none) else withBytes (fun b => .raw cw (some b)) rest
  | none => none

/-- One line (R51). -/
def readLine (line : List Char) : Option AsmCommand :=
  let cs := skipBlanks line
  match dropWord "INIT".toList cs, dropWord "BLOCK".toList cs, dropWord "FINAL".toList cs,
    dropWord "EXTRACT".toList cs, dropWord ".cmd".toList cs, dropWord "DIGEST".toList cs with
  | some rest, _, _, _, _, _ => endedBy .init rest
  | _, some rest, _, _, _, _ => withBytes .block rest
  | _, _, some rest, _, _, _ => withBytes .final rest
  | _, _, _, some rest, _, _ => endedBy .extract rest
  | _, _, _, _, some rest, _ => readRaw rest
  | _, _, _, _, _, some rest => withBytes .digest rest
  | none, none, none, none, none, none => none

/-- The lines of a text: a line feed ends a line, and a carriage return is a character of no line of the grammar. R51 says one
command per line and names no line end (log entry 14). -/
def splitLines : List Char → List (List Char)
  | [] => [[]]
  | c :: cs =>
    if c = '\n' then [] :: splitLines cs
    else
      match splitLines cs with
      | l :: ls => (c :: l) :: ls
      | [] => [[c]]

/-- The bytes one line assembles to. -/
def assembleLine (line : List Char) : Except AsmError (List Byte) :=
  match readLine line with
  | some c => assemble c
  | none => .error .notGrammar

/-- The bytes of lines in order; a line of blanks is no line (log entry 14). -/
def assembleLines : List (List Char) → Except AsmError (List Byte)
  | [] => .ok []
  | line :: lines =>
    if skipBlanks line = [] then assembleLines lines
    else
      match assembleLine line, assembleLines lines with
      | .ok bs, .ok rest => .ok (bs ++ rest)
      | .error e, _ => .error e
      | .ok _, .error e => .error e

/-- The command stream of a program text (R51). -/
def assembleText (text : List Char) : Except AsmError (List Byte) := assembleLines (splitLines text)

/-! ### Disassembly (30_encoding.md R54) -/

/-- "the inverse of rule R42 on the 67 legal command words; every other command word is printed as `.cmd` with its hex
value" (R54). R54 leaves the form of the payload open: it is always written as hex pairs, and a `.cmd` without payload bytes is
written without `bytes` (log entry 14). -/
def disassemble (cw : CmdWord) (payload : List Byte) : AsmCommand :=
  match classify cw with
  | .legal .init => .init
  | .legal .block => .block (.hex payload)
  | .legal .final => .final (.hex payload)
  | .legal .extract => .extract
  | .illegalLen => .raw cw (if payload = [] then none else some (.hex payload))
  | .reservedOp => .raw cw (if payload = [] then none else some (.hex payload))

/-- `bytes` as text. -/
def printBytes : AsmBytes → List Char
  | .hex bs => 'x' :: '"' :: hexForm bs ++ ['"']
  | .ascii cs => '"' :: cs ++ ['"']
  | .repeated b n => printBytes b ++ '*' :: Nat.toDigits 10 n

/-- A command word as `hex16`. -/
def printWord (cw : CmdWord) : List Char := '0' :: 'x' :: hexForm (cmdWordBytes cw)

/-- One command as a line. -/
def printCommand : AsmCommand → List Char
  | .init => "INIT".toList
  | .block b => "BLOCK ".toList ++ printBytes b
  | .final b => "FINAL ".toList ++ printBytes b
  | .extract => "EXTRACT".toList
  | .raw cw none => ".cmd ".toList ++ printWord cw
  | .raw cw (some b) => ".cmd ".toList ++ printWord cw ++ ' ' :: printBytes b
  | .digest b => "DIGEST ".toList ++ printBytes b

end Sys2Proof.Machine
end

