-- ==== Sys2Proof/Machine/System.lean ====
section
/-! DEFINITION. Several engines (00_scope.md R4 `N_ENGINES`, 20_memory.md R39, 60_exceptions.md R118): each has all of its own
state and both of its own streams; nothing is shared. -/

namespace Sys2Proof.Machine

/-- The engines of a system, each with its whole state. -/
abbrev EngineSystem := List State

/-- `N_ENGINES` engines, "all start in the reset state" (60_exceptions.md R118). -/
def systemReset (n : Nat := Config.defaultEngines) : EngineSystem := List.replicate n State.reset

/-- One event at engine `k`. An event addressed to no engine of the system does nothing. -/
def systemApply (k : Nat) (e : HostEvent) (sys : EngineSystem) : Host.Outcome EngineSystem Fault Refusal :=
  match sys[k]? with
  | none => .next sys
  | some s =>
    match applyEvent e s with
    | .next t => .next (sys.set k t)
    | .fault f => .fault f
    | .refused r => .refused r

/-- Any interleaving of events at the engines (20_memory.md R39). -/
def systemApplyAll : List (Nat × HostEvent) → EngineSystem → Host.Outcome EngineSystem Fault Refusal
  | [], sys => .next sys
  | (k, e) :: es, sys =>
    match systemApply k e sys with
    | .next sys' => systemApplyAll es sys'
    | .fault f => .fault f
    | .refused r => .refused r

/-- The events of an interleaving that are addressed to engine `k`, in order. -/
def eventsOf (k : Nat) (es : List (Nat × HostEvent)) : List HostEvent :=
  (es.filter fun p => p.1 == k).map (·.2)

end Sys2Proof.Machine
end

