-- ==== Sys2Proof/Safety.lean ====
section
/-! DEFINITION. What counts as a safe and as a completed run, in the terms claims use: the phase table (10_state.md R15), the
state invariant, the completed run (70_reset_and_hazards.md R126). -/

namespace Sys2Proof.Safety

open Sys2Proof.Machine

/-- The phase table of 10_state.md R15, row by row: the phase a command moves to; none where "every pair not listed is a
fault `E_PHASE`". In `FAULT` no command is accepted. -/
def phaseTable : Phase → Op → Option Phase
  | .idle, .init => some .active
  | .active, .init => some .active
  | .active, .block => some .active
  | .active, .final => some .frozen
  | .frozen, .init => some .active
  | .frozen, .extract => some .idle
  | .idle, .block => none
  | .idle, .final => none
  | .idle, .extract => none
  | .active, .extract => none
  | .frozen, .block => none
  | .frozen, .final => none
  | .fault, _ => none

/-- What the lengths of 20_memory.md R30, R31 and the counter rules of 10_state.md R12, R13 leave true of the count: a
multiple of 512 while absorbing (R13: `512·k`), a multiple of 8 when frozen (R12). -/
def countOk : Stage → Prop
  | .idle => True
  | .active d => d.bitlen.toNat % Config.blockBits = 0
  | .frozen d => d.bitlen.toNat % 8 = 0
  | .fault => True

/-- The invariant of the state: the block buffer keeps its canonical form; `ERRCODE != 0x00` if and only if `PHASE = FAULT`
(10_state.md R17); `ERRCODE` holds 0 or a code of 60_exceptions.md R105; the count is a whole number of blocks or bytes. -/
structure StateInv (s : State) : Prop where
  bufWf : Memory.wf s.buf
  errcodeIff : s.errcode ≠ 0x00 ↔ s.phase = .fault
  errcodeRange : s.errcode.toNat ≤ 4
  count : countOk s.stage

/-- The packets of the command stream execute one after the other, each answered, outside `FAULT`, until the stream is
empty (70_reset_and_hazards.md R126). -/
inductive CompletesFrom : State → Prop where
  | done (s : State) (h : s.phase ≠ .fault) (e : s.cmd = []) : CompletesFrom s
  | packet (s t : State) (i : Instr) (rest : List Byte) (h : s.phase ≠ .fault)
      (d : decode s.cmd = .packet i rest) (e : step s = .next t) (c : t.cmd = rest)
      (r : s.resp.length < t.resp.length) (l : CompletesFrom t) : CompletesFrom s

/-- A completed run: the command stream, given to an engine in the reset state (70_reset_and_hazards.md R126). -/
def RunCompletes (bytes : List Byte) : Prop := CompletesFrom (hostAppend bytes State.reset)

/-- Outside `FAULT`, the engine executes the packet at the front of its command stream, the command `i`, and answers `r`. -/
def Answers (i : Instr) (r : List Byte) (s t : State) : Prop :=
  s.phase ≠ .fault ∧ t.phase ≠ .fault ∧ decode s.cmd = .packet i t.cmd ∧ step s = .next t ∧ t.resp = s.resp ++ r ∧ r ≠ []

/-- It executes these commands one after the other, each answered. -/
def AnswersAll : List Instr → State → State → Prop
  | [], s, u => s = u
  | i :: is, s, u => ∃ (r : List Byte) (t : State), Answers i r s t ∧ AnswersAll is t u

/-- A digest computation from `s` to `t`, with these full blocks and this last payload: complete "when the response to its
`EXTRACT` has been appended" (70_reset_and_hazards.md R126), `D` being the digest in it. -/
def DigestCompletes (blocks : List (List Byte)) (last D : List Byte) (s t : State) : Prop :=
  ∃ u : State, AnswersAll (.init :: blocks.map .block ++ [.final last]) s u ∧ Answers .extract (0x00 :: D) u t

/-- A digest computation completes within the run of a command stream, whatever the run does before and after it
(70_reset_and_hazards.md R126). -/
def DigestCompletesInRun (bytes : List Byte) (blocks : List (List Byte)) (last D : List Byte) : Prop :=
  ∃ (k : Nat) (s t : State), Sys2Proof.core.run k (hostAppend bytes State.reset) = .next s ∧
    DigestCompletes blocks last D s t

/-- The message bits counted after a command, where `n` were counted before it (10_state.md R12). -/
def bitsAfter : Instr → Nat → Nat
  | .init, _ => 0
  | .block _, n => n + Config.blockBits
  | .final p, n => n + 8 * p.length
  | .extract, n => n

/-- "a command sequence that keeps to 10_state.md rule R15 and to the legal lengths, on a message within `MAX_MSG_BITS`"
(60_exceptions.md R109), from a phase and a count on. -/
def lawful : Phase → Nat → List Instr → Bool
  | _, _, [] => true
  | p, n, i :: is =>
    match phaseTable p i.op with
    | none => false
    | some q => i.wellFormed && decide (bitsAfter i n ≤ Config.maxMsgBits) && lawful q (bitsAfter i n) is

/-- An engine that waits for the rest of a packet: a stuck state, neither a fault nor a completed run
(30_encoding.md R53). -/
def Waiting (s : State) : Prop := s.phase ≠ .fault ∧ decode s.cmd = .incomplete

end Sys2Proof.Safety
end

