-- ==== Sys2Proof/Certificates/Slice0/Obligations.lean ====
section
/-! DEFINITION. The statements about the model, for the provers. Each docstring names the rule of spec/ it formalises. A state
after a fault is written out as a record, not through the model's own fault entry. -/

open Sys2Proof Sys2Proof.Machine Sys2Proof.Safety

/-! ### Encoding -/

/-- Command words written out from 30_encoding.md R42 and classified in 95_test_vectors.md section 6.1 decode to the commands
they stand for, or are refused by name. -/
def Obligations.SampleWordsDecode : Prop :=
  decode [0x01, 0x00, 0x03] = .packet .init [0x03] ∧
  decode ([0x02, 0x40] ++ List.replicate 64 0x61) = .packet (.block (List.replicate 64 0x61)) [] ∧
  decode [0x03, 0x03, 0x61, 0x62, 0x63, 0x04, 0x00] = .packet (.final [0x61, 0x62, 0x63]) [0x04, 0x00] ∧
  decode [0x03, 0x00] = .packet (.final []) [] ∧
  decode [0x04, 0x00] = .packet .extract [] ∧
  decode [0x00, 0x01] = .reservedOp [] ∧
  decode [0x09, 0x40] = .reservedOp [] ∧
  decode [0x03, 0x40] = .illegalLen [] ∧
  decode [0x02, 0x3F] = .illegalLen [] ∧
  decode [0x01] = .incomplete

/-- R54: encoding then decoding is the identity on legal packets, whatever stands behind the packet. -/
def Obligations.DecodeOfEncode : Prop :=
  ∀ (i : Instr) (rest : List Byte), i.wellFormed = true → decode (encode i ++ rest) = .packet i rest

/-- R54: decoding then encoding is the identity on legal packets: no bit of a packet is ignored by the decoder, and the
decoder gives well-formed commands only. -/
def Obligations.EncodeOfDecode : Prop :=
  ∀ (bytes rest : List Byte) (i : Instr), decode bytes = .packet i rest →
    i.wellFormed = true ∧ bytes = encode i ++ rest

/-- R40, R41, R42: a legal packet is `OP`, then the payload length as `LEN`, then the payload; it is `2 + LEN` bytes long,
and `OP` and `LEN` are the fields the opcode map gives. -/
def Obligations.PacketFormat : Prop :=
  encode .init = [0x01, 0x00] ∧
  encode .extract = [0x04, 0x00] ∧
  (∀ p : List Byte, p.length = 64 → encode (.block p) = 0x02 :: 0x40 :: p) ∧
  (∀ p : List Byte, p.length ≤ 63 →
    ∃ len : Byte, len.toNat = p.length ∧ encode (.final p) = 0x03 :: len :: p ∧ (encode (.final p)).length = 2 + p.length)

/-- R42, 90_conflicts.md C13: the pairs `match`, `mask` of the opcode table select exactly the legal command words of their
command, the pairs `op_match`, `op_mask` exactly the words that are not `E_OPCODE`, and no word is legal for two rows. -/
def Obligations.MaskTableSelectsLegalWords : Prop :=
  (∀ (cw : CmdWord) (op : Op), classify cw = .legal op ↔ ∃ r ∈ opcodeTable, r.op = op ∧ r.isLegal cw = true) ∧
  (∀ cw : CmdWord, classify cw = .reservedOp ↔ ∀ r ∈ opcodeTable, r.hasOp cw = false) ∧
  (∀ (cw : CmdWord) (r q : OpRow), r ∈ opcodeTable → q ∈ opcodeTable → r.isLegal cw = true → q.isLegal cw = true → r = q)

/-- R48: of the 65536 command words 67 are legal, 957 have a defined `OP` and an illegal `LEN`, 64512 a reserved `OP`. -/
def Obligations.CommandWordCounts : Prop :=
  ((List.range 256).map fun o => (List.range 256).countP fun l =>
    match classify (BitVec.ofNat 8 o ++ BitVec.ofNat 8 l) with | .legal _ => true | _ => false).sum = 67 ∧
  ((List.range 256).map fun o => (List.range 256).countP fun l =>
    match classify (BitVec.ofNat 8 o ++ BitVec.ofNat 8 l) with | .illegalLen => true | _ => false).sum = 957 ∧
  ((List.range 256).map fun o => (List.range 256).countP fun l =>
    match classify (BitVec.ofNat 8 o ++ BitVec.ofNat 8 l) with | .reservedOp => true | _ => false).sum = 64512

/-- R45, R50: the decoder reads `CW = packet[0]·256 + packet[1]` and does by its class what R50 says: reserved and illegal
words are refused on the word alone, a legal one waits for its payload. -/
def Obligations.DecodeFollowsClass : Prop :=
  (∀ (op len : Byte) (rest : List Byte) (cw : CmdWord), cw.toNat = op.toNat * 256 + len.toNat →
    (classify cw = .reservedOp → decode (op :: len :: rest) = .reservedOp rest) ∧
    (classify cw = .illegalLen → decode (op :: len :: rest) = .illegalLen rest) ∧
    (∀ o, classify cw = .legal o → len.toNat ≤ rest.length →
      decode (op :: len :: rest) = .packet (o.instr (rest.take len.toNat)) (rest.drop len.toNat)) ∧
    (∀ o, classify cw = .legal o → rest.length < len.toNat → decode (op :: len :: rest) = .incomplete)) ∧
  (∀ bytes : List Byte, bytes.length < 2 → decode bytes = .incomplete)

/-! ### The datapath -/

/-- R7: the byte-order functions as R7 defines them, `be32` undoes `be32_bytes`, and the bytes of `be64_bytes`, most significant
first, are the value. -/
def Obligations.ByteOrderFunctions : Prop :=
  (∀ b0 b1 b2 b3 : Byte,
    (be32 b0 b1 b2 b3).toNat = b0.toNat * 2 ^ 24 + b1.toNat * 2 ^ 16 + b2.toNat * 2 ^ 8 + b3.toNat) ∧
  (∀ v : Word,
    be32Bytes v = [v.extractLsb' 24 8, v.extractLsb' 16 8, v.extractLsb' 8 8, v.extractLsb' 0 8] ∧
    be32 (v.extractLsb' 24 8) (v.extractLsb' 16 8) (v.extractLsb' 8 8) (v.extractLsb' 0 8) = v) ∧
  (∀ v : Count,
    be64Bytes v = [v.extractLsb' 56 8, v.extractLsb' 48 8, v.extractLsb' 40 8, v.extractLsb' 32 8,
      v.extractLsb' 24 8, v.extractLsb' 16 8, v.extractLsb' 8 8, v.extractLsb' 0 8] ∧
    (be64Bytes v).foldl (fun n b => n * 256 + b.toNat) 0 = v.toNat)

/-- R55: `ROTL(x, n)` for `n` in 1 to 31: the value, bit by bit, no bit lost or invented, and the corner cases. -/
def Obligations.RotateLeftRule : Prop :=
  (∀ (x : Word) (n : Nat), 1 ≤ n → n ≤ 31 →
    (rotl x n).toNat = x.toNat * 2 ^ n % 2 ^ 32 + x.toNat / 2 ^ (32 - n) ∧
    (∀ j, j < 32 → (rotl x n).getLsbD j = x.getLsbD ((j + 32 - n) % 32)) ∧
    ((List.range 32).countP fun j => (rotl x n).getLsbD j) = ((List.range 32).countP fun j => x.getLsbD j) ∧
    rotl 0x00000000 n = 0x00000000 ∧ rotl 0xFFFFFFFF n = 0xFFFFFFFF) ∧
  (∀ x : Word, rotl x 30 = x.rotateRight 2) ∧
  rotl 0x80000000 1 = 0x00000001 ∧ rotl 0x67452301 5 = 0xE8A4602C

/-- R60: the round function by range of the round index, as a formula and bit by bit, with the example at all four rows. -/
def Obligations.RoundFunctionRule : Prop :=
  (∀ (i : Nat) (b c d : Word), i < 80 →
    (i ≤ 19 → roundF i b c d = (b &&& c) ||| (~~~b &&& d) ∧
      ∀ j, j < 32 → (roundF i b c d).getLsbD j = if b.getLsbD j then c.getLsbD j else d.getLsbD j) ∧
    (20 ≤ i ∧ i ≤ 39 ∨ 60 ≤ i → roundF i b c d = b ^^^ c ^^^ d ∧
      ∀ j, j < 32 → (roundF i b c d).getLsbD j =
        decide (((b.getLsbD j).toNat + (c.getLsbD j).toNat + (d.getLsbD j).toNat) % 2 = 1)) ∧
    (40 ≤ i ∧ i ≤ 59 → roundF i b c d = (b &&& c) ||| (b &&& d) ||| (c &&& d) ∧
      ∀ j, j < 32 → (roundF i b c d).getLsbD j =
        decide (2 ≤ (b.getLsbD j).toNat + (c.getLsbD j).toNat + (d.getLsbD j).toNat))) ∧
  roundF 19 0xEFCDAB89 0x98BADCFE 0x10325476 = 0x98BADCFE ∧
  roundF 39 0xEFCDAB89 0x98BADCFE 0x10325476 = 0x67452301 ∧
  roundF 59 0xEFCDAB89 0x98BADCFE 0x10325476 = 0x98BADCFE ∧
  roundF 60 0xEFCDAB89 0x98BADCFE 0x10325476 = 0x67452301

/-- R61: the round constant by range of the round index. -/
def Obligations.RoundConstantRule : Prop :=
  ∀ i, i < 80 →
    (i ≤ 19 → roundK i = 0x5A827999) ∧ (20 ≤ i ∧ i ≤ 39 → roundK i = 0x6ED9EBA1) ∧
    (40 ≤ i ∧ i ≤ 59 → roundK i = 0x8F1BBCDC) ∧ (60 ≤ i → roundK i = 0xCA62C1D6)

/-- R58, R59: the 80-word schedule of a block: words 0 to 15 are its bytes, four at a time, first byte most significant;
words 16 to 79 follow the recurrence; the all-zero block gives zero words. -/
def Obligations.ScheduleRule : Prop :=
  (∀ B : List Byte, B.length = 64 →
    (schedule B).length = 80 ∧
    (∀ j, j < 16 → ((schedule B).getD j 0).toNat =
      (B.getD (4 * j) 0).toNat * 2 ^ 24 + (B.getD (4 * j + 1) 0).toNat * 2 ^ 16 +
      (B.getD (4 * j + 2) 0).toNat * 2 ^ 8 + (B.getD (4 * j + 3) 0).toNat) ∧
    (∀ i, 16 ≤ i → i < 80 → (schedule B).getD i 0 =
      ((schedule B).getD (i - 3) 0 ^^^ (schedule B).getD (i - 8) 0 ^^^ (schedule B).getD (i - 14) 0 ^^^
        (schedule B).getD (i - 16) 0).rotateLeft 1)) ∧
  (∀ B : List Byte, B.length = 64 → B.take 4 = [0x61, 0x62, 0x63, 0x80] → (schedule B).getD 0 0 = 0x61626380) ∧
  (schedule (0x80 :: List.replicate 63 0x00)).getD 16 0 = 0x00000001 ∧
  (∀ i, i < 80 → (schedule (List.replicate 64 0x00)).getD i 0 = 0)

/-- R65: `COMPRESS(S, B)` is what R58, R59, R62, R63 (80 times) and R64 give: for ANY schedule words and register values that
follow those rules from `S` and `B`, the result is the accumulator plus the registers after round 79. -/
def Obligations.CompressFollowsRule : Prop :=
  ∀ (S : Accum) (B : List Byte), B.length = 64 → ∀ W a b c d e : Nat → Word,
    (∀ j, j < 16 → (W j).toNat = (B.getD (4 * j) 0).toNat * 2 ^ 24 + (B.getD (4 * j + 1) 0).toNat * 2 ^ 16 +
      (B.getD (4 * j + 2) 0).toNat * 2 ^ 8 + (B.getD (4 * j + 3) 0).toNat) →
    (∀ i, 16 ≤ i → i < 80 → W i = (W (i - 3) ^^^ W (i - 8) ^^^ W (i - 14) ^^^ W (i - 16)).rotateLeft 1) →
    a 0 = S.acc0 → b 0 = S.acc1 → c 0 = S.acc2 → d 0 = S.acc3 → e 0 = S.acc4 →
    (∀ i, i < 80 →
      a (i + 1) = (a i).rotateLeft 5 + roundF i (b i) (c i) (d i) + e i + roundK i + W i ∧
      b (i + 1) = a i ∧ c (i + 1) = (b i).rotateLeft 30 ∧ d (i + 1) = c i ∧ e (i + 1) = d i) →
    compress S B = ⟨S.acc0 + a 80, S.acc1 + b 80, S.acc2 + c 80, S.acc3 + d 80, S.acc4 + e 80⟩

/-- R80: the padded tail, its zero count `z = (55 − n) mod 64` in both forms, the fewest zero bytes that do, with the corner
values. -/
def Obligations.PaddedTailRule : Prop :=
  ∀ (p : List Byte) (L : Count), p.length ≤ 63 →
    ∃ z : Nat, paddedTail p L = p ++ [0x80] ++ List.replicate z 0x00 ++ be64Bytes L ∧
      (p.length ≤ 55 → z = 55 - p.length) ∧ (56 ≤ p.length → z = 119 - p.length) ∧
      (z : Int) = (55 - (p.length : Int)) % 64 ∧ z ≤ 63 ∧
      (∀ z' : Nat, (p.length + 1 + z') % 64 = 56 → z ≤ z') ∧
      (z = 0 ↔ p.length = 55) ∧ (z = 63 ↔ p.length = 56) ∧ (p.length = 63 → z = 56) ∧
      (be64Bytes L).length = 8 ∧ (be64Bytes L).head? = some (L.extractLsb' 56 8)

/-- R81, R84: the padded tail is 64 bytes for a payload of at most 55 bytes and 128 for 56 to 63, never anything else; in two
blocks the first holds the payload, `0x80` and `63 − n` zero bytes and the second 56 zero bytes and the length. -/
def Obligations.PaddedTailLayout : Prop :=
  ∀ (p : List Byte) (L : Count), p.length ≤ 63 →
    (p.length ≤ 55 → (paddedTail p L).length = 64) ∧
    (56 ≤ p.length → (paddedTail p L).length = 128 ∧
      (paddedTail p L).take 64 = p ++ [0x80] ++ List.replicate (63 - p.length) 0x00 ∧
      (paddedTail p L).drop 64 = List.replicate 56 0x00 ++ be64Bytes L) ∧
    (paddedTail p L).drop ((paddedTail p L).length - 8) = be64Bytes L

/-- R8: within `addr + n <= 64`, `MemWrite` succeeds, `MemRead` of the same bytes gives them back, every other address is left
alone, and the canonical form is kept; outside, both stop the model (log entry 4). -/
def Obligations.BufferReadAfterWrite : Prop :=
  (∀ (m : Memory) (addr : Nat) (v : List Byte), addr + v.length ≤ 64 →
    ∃ m', memWrite m addr v = .ok m' ∧ memRead m' addr v.length = .ok v ∧
      (∀ a, a < addr ∨ addr + v.length ≤ a → readByte m' a = readByte m a) ∧ (Memory.wf m → Memory.wf m')) ∧
  (∀ (m : Memory) (addr : Nat) (v : List Byte), 64 < addr + v.length →
    memWrite m addr v = .error .bufferRange ∧ memRead m addr v.length = .error .bufferRange)

/-! ### The four commands: each completes, with the next state the rule gives, or faults as the rule says -/

/-- R70: `INIT`: its encoding; from every phase but `FAULT` the constants, a zero count, `ACTIVE`, response `00`, and nothing
else changes; `E_LENGTH` if `LEN != 0`. What that fault leaves of the command stream is the model's choice (log entry 7). -/
def Obligations.InitRule : Prop :=
  encode .init = [0x01, 0x00] ∧
  (∀ s : State, s.phase ≠ .fault →
    exec .init s = .next { s with
      stage := .active ⟨⟨0x67452301, 0xEFCDAB89, 0x98BADCFE, 0x10325476, 0xC3D2E1F0⟩, 0⟩
      resp := s.resp ++ [0x00] }) ∧
  (∀ (s : State) (len : Byte) (rest : List Byte), s.phase ≠ .fault → len ≠ 0x00 → s.cmd = 0x01 :: len :: rest →
    step s = .next { s with stage := .fault, errcode := 0x02, cmd := rest, resp := s.resp ++ [0x02] })

/-- R71: `INIT` does not depend on what was there before (a, b, c), twice is once but for the second response (d), and in
`FAULT` it is discarded (e). -/
def Obligations.InitForgets : Prop :=
  (∀ s t : State, s.phase ≠ .fault → t.phase ≠ .fault →
    ∃ s' t', exec .init s = .next s' ∧ exec .init t = .next t' ∧ s'.stage = t'.stage) ∧
  (∀ s : State, s.phase ≠ .fault →
    ∃ t, exec .init s = .next t ∧ exec .init t = .next { t with resp := t.resp ++ [0x00] }) ∧
  (∀ s : State, s.phase = .fault → exec .init s = .next s)

/-- R72: `BLOCK`: its encoding; in `ACTIVE`, with 64 payload bytes and room in the count, `ACC` is the compression of the
payload, `BITLEN` 512 more, response `00`, and nothing else changes; its faults in priority order, each with no other effect.
That the 64 bytes of `BUF` hold no value afterwards is log entry 3, `E_LENGTH` for an ill-formed term log entry 9: the model's
readings. -/
def Obligations.BlockRule : Prop :=
  (∀ p : List Byte, p.length = 64 → encode (.block p) = 0x02 :: 0x40 :: p) ∧
  (∀ (s : State) (d : DigestState) (p : List Byte), s.stage = .active d → p.length = 64 →
    d.bitlen.toNat + 512 ≤ 2 ^ 64 - 1 →
    ∃ (m : Memory) (L : Count), L.toNat = d.bitlen.toNat + 512 ∧
      exec (.block p) s = .next { s with stage := .active ⟨compress d.acc p, L⟩, buf := m, resp := s.resp ++ [0x00] } ∧
      (∀ k, k < 64 → readByte m (blockAddr + k) = none) ∧
      (∀ a, a < blockAddr ∨ blockAddr + 64 ≤ a → readByte m a = readByte s.buf a)) ∧
  (∀ (s : State) (p : List Byte), s.phase ≠ .fault → p.length ≠ 64 →
    exec (.block p) s = .next { s with stage := .fault, errcode := 0x02, resp := s.resp ++ [0x02] }) ∧
  (∀ (s : State) (p : List Byte), s.phase = .idle ∨ s.phase = .frozen → p.length = 64 →
    exec (.block p) s = .next { s with stage := .fault, errcode := 0x03, resp := s.resp ++ [0x03] }) ∧
  (∀ (s : State) (d : DigestState) (p : List Byte), s.stage = .active d → p.length = 64 →
    d.bitlen.toNat + 512 > 2 ^ 64 - 1 →
    exec (.block p) s = .next { s with stage := .fault, errcode := 0x04, resp := s.resp ++ [0x04] })

/-- R82, with the length of R79 and the tail of R80: `FINAL`: its encoding; in `ACTIVE`, with at most 63 payload bytes and
room in the count, `BITLEN` becomes `L`, the one or two blocks of the tail are compressed in order, `PHASE` is `FROZEN`,
response `00`, and nothing else changes; its faults in priority order, each with no other effect. That the 64 bytes of `BUF`
hold no value afterwards is log entry 3, `E_LENGTH` for an ill-formed term log entry 9: the model's readings. -/
def Obligations.FinalRule : Prop :=
  (∀ p : List Byte, p.length ≤ 63 → encode (.final p) = 0x03 :: BitVec.ofNat 8 p.length :: p) ∧
  (∀ (s : State) (d : DigestState) (p : List Byte), s.stage = .active d → p.length ≤ 63 →
    d.bitlen.toNat + 8 * p.length ≤ 2 ^ 64 - 1 →
    ∃ (L : Count) (tail : List Byte) (m : Memory), L.toNat = d.bitlen.toNat + 8 * p.length ∧
      tail = p ++ [0x80] ++ List.replicate ((55 - (p.length : Int)) % 64).toNat 0x00 ++ be64Bytes L ∧
      exec (.final p) s = .next { s with
        stage := .frozen ⟨if tail.length = 128 then compress (compress d.acc (tail.take 64)) (tail.drop 64)
          else compress d.acc (tail.take 64), L⟩
        buf := m
        resp := s.resp ++ [0x00] } ∧
      (∀ k, k < 64 → readByte m (blockAddr + k) = none) ∧
      (∀ a, a < blockAddr ∨ blockAddr + 64 ≤ a → readByte m a = readByte s.buf a)) ∧
  (∀ (s : State) (p : List Byte), s.phase ≠ .fault → 64 ≤ p.length →
    exec (.final p) s = .next { s with stage := .fault, errcode := 0x02, resp := s.resp ++ [0x02] }) ∧
  (∀ (s : State) (p : List Byte), s.phase = .idle ∨ s.phase = .frozen → p.length ≤ 63 →
    exec (.final p) s = .next { s with stage := .fault, errcode := 0x03, resp := s.resp ++ [0x03] }) ∧
  (∀ (s : State) (d : DigestState) (p : List Byte), s.stage = .active d → p.length ≤ 63 →
    d.bitlen.toNat + 8 * p.length > 2 ^ 64 - 1 →
    exec (.final p) s = .next { s with stage := .fault, errcode := 0x04, resp := s.resp ++ [0x04] })

/-- R86: `EXTRACT`: its encoding; in `FROZEN` the response is `00` and the five words in index order, each most significant
byte first, `PHASE` is `IDLE`, `ACC` and `BITLEN` hold no value, and nothing else changes; its faults in priority order. What `E_LENGTH` leaves of the command
stream is the model's choice (log entry 7). -/
def Obligations.ExtractRule : Prop :=
  encode .extract = [0x04, 0x00] ∧
  (∀ (s : State) (d : DigestState), s.stage = .frozen d →
    ∃ t : State, exec .extract s = .next t ∧
      t = { s with
        stage := .idle
        resp := s.resp ++ 0x00 :: ([d.acc.acc0, d.acc.acc1, d.acc.acc2, d.acc.acc3, d.acc.acc4].flatMap fun w =>
          [w.extractLsb' 24 8, w.extractLsb' 16 8, w.extractLsb' 8 8, w.extractLsb' 0 8]) } ∧
      t.acc = none ∧ t.bitlen = none ∧ t.resp.length = s.resp.length + 21) ∧
  (∀ (s : State) (len : Byte) (rest : List Byte), s.phase ≠ .fault → len ≠ 0x00 → s.cmd = 0x04 :: len :: rest →
    step s = .next { s with stage := .fault, errcode := 0x02, cmd := rest, resp := s.resp ++ [0x02] }) ∧
  (∀ s : State, s.phase = .idle ∨ s.phase = .active →
    exec .extract s = .next { s with stage := .fault, errcode := 0x03, resp := s.resp ++ [0x03] })

/-! ### Frames -/

/-- R21, the rows of `INIT` and `EXTRACT`: accepted, they change neither `ERRCODE` nor a byte of `BUF` nor what is left of the
command stream, and only append to the response stream. The clause about `BUF` is the model's: its value between commands is
unspecified (R19, log entry 3). -/
def Obligations.InitExtractFrame : Prop :=
  ∀ (i : Instr) (s t : State), i = .init ∨ i = .extract → s.phase ≠ .fault → exec i s = .next t → t.phase ≠ .fault →
    t.errcode = s.errcode ∧ t.cmd = s.cmd ∧ s.resp <+: t.resp ∧ ∀ a, readByte t.buf a = readByte s.buf a

/-- R21, the rows of `BLOCK` and `FINAL`: accepted, they change neither `ERRCODE` nor what is left of the command stream, only
append to the response stream, and store to the 64 bytes of `BUF` from the block address on and to no other. The clause about
`BUF` is the model's: its value between commands is unspecified (R19, log entry 3). -/
def Obligations.BlockFinalFrame : Prop :=
  ∀ (i : Instr) (p : List Byte) (s t : State), i = .block p ∨ i = .final p → s.phase ≠ .fault → exec i s = .next t →
    t.phase ≠ .fault →
    t.errcode = s.errcode ∧ t.cmd = s.cmd ∧ s.resp <+: t.resp ∧
      ∀ a, a < blockAddr ∨ blockAddr + Config.blockBytes ≤ a → readByte t.buf a = readByte s.buf a

/-- R85: in `FROZEN` no command changes `ACC` except by destroying it, so the digest a host extracts is exactly the `ACC` that
`FINAL` left. -/
def Obligations.FrozenResult : Prop :=
  (∀ (s t : State) (d : DigestState), s.stage = .frozen d → step s = .next t →
    t.stage = .frozen d ∨ t.stage = .active ⟨initialAccum, 0⟩ ∨ t.stage = .idle ∨ t.stage = .fault) ∧
  (∀ (s t : State) (p : List Byte) (d : DigestState), s.phase = .active → exec (.final p) s = .next t →
    t.stage = .frozen d →
    ∃ u, exec .extract t = .next u ∧ u.resp = t.resp ++ 0x00 :: digestBytes d.acc)

/-! ### Phases, responses, faults -/

/-- R15: the complete phase table: a listed pair moves as listed, every pair not listed is the fault `E_PHASE` with no other
effect, in `FAULT` nothing is accepted, and reset leads to `IDLE` from anywhere. The premise on the count keeps the one other
fault, `E_OVERFLOW`, apart. -/
def Obligations.PhaseTableRule : Prop :=
  (∀ (i : Instr) (s : State), i.wellFormed = true → s.phase ≠ .fault →
    (∀ d, s.stage = .active d → d.bitlen.toNat + 512 ≤ 2 ^ 64 - 1) →
    (∀ q, phaseTable s.phase i.op = some q → ∃ t, exec i s = .next t ∧ t.phase = q) ∧
    (phaseTable s.phase i.op = none →
      exec i s = .next { s with stage := .fault, errcode := 0x03, resp := s.resp ++ [0x03] })) ∧
  (∀ (i : Instr) (s : State), s.phase = .fault → exec i s = .next s) ∧
  (∀ s : State, (hardwareReset s).phase = .idle)

/-- R46: the response to each outcome: `00` for `INIT`, `BLOCK`, `FINAL`; `00` and 20 digest bytes for `EXTRACT`; the fault
code, 1 to 4, for a fault; nothing in `FAULT`. An incomplete packet has no response yet (R53). -/
def Obligations.ResponseRule : Prop :=
  ∀ s t : State, step s = .next t → ∃ r : List Byte, t.resp = s.resp ++ r ∧
    (s.phase = .fault → r = []) ∧
    (s.phase ≠ .fault → decode s.cmd = .incomplete → r = []) ∧
    (s.phase ≠ .fault → decode s.cmd ≠ .incomplete → r.length = 1 ∨ r.length = 21) ∧
    (s.phase ≠ .fault → t.phase = .fault →
      r = [t.errcode] ∧ (t.errcode = 0x01 ∨ t.errcode = 0x02 ∨ t.errcode = 0x03 ∨ t.errcode = 0x04)) ∧
    (∀ i rest, s.phase ≠ .fault → t.phase ≠ .fault → decode s.cmd = .packet i rest → i ≠ .extract → r = [0x00]) ∧
    (∀ rest, s.phase ≠ .fault → t.phase ≠ .fault → decode s.cmd = .packet .extract rest →
      ∃ d, s.stage = .frozen d ∧ r = 0x00 :: digestBytes d.acc)

/-- R106: `E_OPCODE` when the first byte of a packet is not 1, 2, 3 or 4, in any phase but `FAULT`, whatever the second byte
and the bytes behind it. What is left of the command stream is the model's choice (log entry 7). -/
def Obligations.ReservedOpcodeFaults : Prop :=
  ∀ (s : State) (op len : Byte) (rest : List Byte), s.phase ≠ .fault → s.cmd = op :: len :: rest →
    op ≠ 0x01 → op ≠ 0x02 → op ≠ 0x03 → op ≠ 0x04 →
    step s = .next { s with stage := .fault, errcode := 0x01, cmd := rest, resp := s.resp ++ [0x01] }

/-- R107: `E_LENGTH` when `OP` is defined and `LEN` is outside its legal set, on the command word alone: nothing is truncated,
filled, split or waited for. What is left of the command stream is the model's choice (log entry 7). -/
def Obligations.IllegalLengthFaults : Prop :=
  ∀ (s : State) (op len : Byte) (rest : List Byte), s.phase ≠ .fault → s.cmd = op :: len :: rest →
    ((op = 0x01 ∨ op = 0x04) ∧ len.toNat ≠ 0 ∨ op = 0x02 ∧ len.toNat ≠ 64 ∨ op = 0x03 ∧ 64 ≤ len.toNat) →
    step s = .next { s with stage := .fault, errcode := 0x02, cmd := rest, resp := s.resp ++ [0x02] }

/-- R108: `E_PHASE` when `OP` and `LEN` are legal and the command is not allowed in the phase: `BLOCK` and `FINAL` in `IDLE` or
`FROZEN`, `EXTRACT` in `IDLE` or `ACTIVE`; `INIT` never raises it. -/
def Obligations.OutOfPhaseFaults : Prop :=
  (∀ (s : State) (i : Instr) (p : List Byte), i.wellFormed = true → i = .block p ∨ i = .final p →
    s.phase = .idle ∨ s.phase = .frozen →
    exec i s = .next { s with stage := .fault, errcode := 0x03, resp := s.resp ++ [0x03] }) ∧
  (∀ s : State, s.phase = .idle ∨ s.phase = .active →
    exec .extract s = .next { s with stage := .fault, errcode := 0x03, resp := s.resp ++ [0x03] }) ∧
  (∀ s : State, s.phase ≠ .fault → ∃ t, exec .init s = .next t ∧ t.phase = .active)

/-- R110: `BLOCK` faults with `E_OVERFLOW` exactly when `BITLEN + 512 > 2^64 − 1`, `FINAL` exactly when
`BITLEN + 8·LEN > 2^64 − 1`, the sums in the naturals; after `k` blocks the next `BLOCK` does exactly when it is the `2^55`-th;
from a count that is a multiple of 512 `FINAL` never does; the counter never wraps. -/
def Obligations.OverflowRule : Prop :=
  (∀ (s : State) (d : DigestState) (p : List Byte), s.stage = .active d → p.length = 64 →
    (exec (.block p) s = .next { s with stage := .fault, errcode := 0x04, resp := s.resp ++ [0x04] } ↔
      d.bitlen.toNat + 512 > 2 ^ 64 - 1)) ∧
  (∀ (s : State) (d : DigestState) (p : List Byte), s.stage = .active d → p.length ≤ 63 →
    (exec (.final p) s = .next { s with stage := .fault, errcode := 0x04, resp := s.resp ++ [0x04] } ↔
      d.bitlen.toNat + 8 * p.length > 2 ^ 64 - 1)) ∧
  (∀ (s : State) (d : DigestState) (p : List Byte) (k : Nat), s.stage = .active d → p.length = 64 →
    d.bitlen.toNat = 512 * k →
    (exec (.block p) s = .next { s with stage := .fault, errcode := 0x04, resp := s.resp ++ [0x04] } ↔
      k + 1 = 2 ^ 55)) ∧
  (∀ (s : State) (d : DigestState) (p : List Byte), s.stage = .active d → p.length ≤ 63 → d.bitlen.toNat % 512 = 0 →
    ∃ t, exec (.final p) s = .next t ∧ t.phase = .frozen) ∧
  (∀ (s t : State) (d d' : DigestState) (i : Instr), s.stage = .active d → i ≠ .init → exec i s = .next t →
    t.stage.digestState = some d' → d.bitlen.toNat ≤ d'.bitlen.toNat)

/-- R111: exactly one fault is reported, the first in the order `E_OPCODE`, `E_LENGTH`, `E_PHASE`, `E_OVERFLOW`, whatever else
the packet violates. What is left of the command stream is the model's choice (log entry 7). -/
def Obligations.FaultPriority : Prop :=
  ∀ (s : State) (op len : Byte) (rest : List Byte), s.phase ≠ .fault → s.cmd = op :: len :: rest →
    (Op.ofByte op = none →
      step s = .next { s with stage := .fault, errcode := 0x01, cmd := rest, resp := s.resp ++ [0x01] }) ∧
    (∀ o, Op.ofByte op = some o → o.lenLegal len.toNat = false →
      step s = .next { s with stage := .fault, errcode := 0x02, cmd := rest, resp := s.resp ++ [0x02] }) ∧
    (∀ o, Op.ofByte op = some o → o.lenLegal len.toNat = true → len.toNat ≤ rest.length →
      phaseTable s.phase o = none →
      step s = .next { s with
        stage := .fault, errcode := 0x03, cmd := rest.drop len.toNat, resp := s.resp ++ [0x03] }) ∧
    (∀ o d, Op.ofByte op = some o → o = .block ∨ o = .final → o.lenLegal len.toNat = true →
      len.toNat ≤ rest.length → s.stage = .active d →
      d.bitlen.toNat + (if o = .block then 512 else 8 * len.toNat) > 2 ^ 64 - 1 →
      step s = .next { s with
        stage := .fault, errcode := 0x04, cmd := rest.drop len.toNat, resp := s.resp ++ [0x04] })

/-- R112, R116: whatever step leads to `FAULT`, fault entry is its whole effect: `ERRCODE` and the one response byte are the
code, `ACC` and `BITLEN` hold no value, `BUF` is untouched and the command stream has only been consumed. That `BUF` is
untouched is the model's: R116 calls it unspecified (log entry 3). -/
def Obligations.FaultEntryRule : Prop :=
  ∀ s t : State, s.phase ≠ .fault → step s = .next t → t.phase = .fault →
    ∃ (code : Byte) (taken : List Byte), (code = 0x01 ∨ code = 0x02 ∨ code = 0x03 ∨ code = 0x04) ∧
      s.cmd = taken ++ t.cmd ∧
      t = { s with stage := .fault, errcode := code, cmd := t.cmd, resp := s.resp ++ [code] } ∧
      t.acc = none ∧ t.bitlen = none

/-- R113: in `FAULT` every byte is discarded without decoding, nothing is answered, nothing changes, whatever the host appends
and however many steps the engine takes; the run never completes. That one step discards all that is pending is the model's
choice (log entry 6). -/
def Obligations.FaultIsQuiescent : Prop :=
  (∀ s : State, s.phase = .fault → step s = .next { s with cmd := [] }) ∧
  (∀ (es : List HostEvent) (s : State), s.phase = .fault → (∀ e ∈ es, e = .run ∨ ∃ bytes, e = .append bytes) →
    ∃ rest, applyEvents es s = .next { s with cmd := rest }) ∧
  (∀ s : State, s.phase = .fault → ¬ CompletesFrom s)

/-- R114: no event but hardware reset leaves `FAULT`, and reset leads to `IDLE`, from where every computation starts again
from `INIT`: any other command faults there. -/
def Obligations.OnlyResetLeavesFault : Prop :=
  ∀ (e : HostEvent) (s t : State), s.phase = .fault → applyEvent e s = .next t →
    (t.phase ≠ .fault ↔ e = .reset) ∧
    (e = .reset → t.phase = .idle ∧ ∀ i : Instr, i ≠ .init → ∃ u, exec i t = .next u ∧ u.phase = .fault)

/-- R120: hardware reset from any state: `PHASE = IDLE`, `ERRCODE = 0x00`, `ACC`, `BITLEN` and every byte of `BUF` hold no
value, both streams are empty; the engine then waits. -/
def Obligations.ResetRule : Prop :=
  ∀ s : State, (hardwareReset s).phase = .idle ∧ (hardwareReset s).errcode = 0x00 ∧ (hardwareReset s).acc = none ∧
    (hardwareReset s).bitlen = none ∧ (∀ a, readByte (hardwareReset s).buf a = none) ∧ (hardwareReset s).cmd = [] ∧
    (hardwareReset s).resp = [] ∧ hardwareReset s = State.reset ∧ step (hardwareReset s) = .next (hardwareReset s)

/-! ### The decode loop -/

/-- R50: when the bytes at the front of the command stream are the packet of a well-formed command, `step` is `exec` of that
command on the state with the packet consumed. -/
def Obligations.StepRunsDecoded : Prop :=
  (∀ (s : State) (i : Instr) (rest : List Byte), s.phase ≠ .fault → decode s.cmd = .packet i rest →
    step s = exec i { s with cmd := rest }) ∧
  (∀ (s : State) (i : Instr) (rest : List Byte), s.phase ≠ .fault → i.wellFormed = true → s.cmd = encode i ++ rest →
    step s = exec i { s with cmd := rest })

/-- R53: with fewer bytes than the packet needs the engine waits: no state changes and nothing is emitted, for ever if nothing
arrives, and a stream that ends inside a packet is no completed run; when the missing bytes arrive the command executes. -/
def Obligations.IncompletePacketWaits : Prop :=
  (∀ s : State, s.phase ≠ .fault → s.cmd.length < 2 → ∀ k, Sys2Proof.core.run k s = .next s) ∧
  (∀ (s : State) (op len : Byte) (o : Op) (rest : List Byte), s.phase ≠ .fault → s.cmd = op :: len :: rest →
    Op.ofByte op = some o → o.lenLegal len.toNat = true → rest.length < len.toNat →
    ∀ k, Sys2Proof.core.run k s = .next s) ∧
  (∀ s : State, Waiting s → s.cmd ≠ [] → ¬ CompletesFrom s) ∧
  (∀ (s : State) (i : Instr) (more : List Byte), s.phase ≠ .fault → i.wellFormed = true → s.cmd ++ more = encode i →
    step (hostAppend more s) = exec i { s with cmd := [] })

/-- No state stops the model: every step answers a next state (R125 "Every command terminates", R66 "raises no fault and has
no error path"; the model's own stops are never reached). -/
def Obligations.StepNeverStops : Prop :=
  ∀ s : State, ∃ t, step s = .next t

/-- R35, R36: the host may append packets without waiting: bytes appended behind a whole packet change nothing of what the
engine does with that packet. -/
def Obligations.PipeliningEqualsWaiting : Prop :=
  ∀ (s t : State) (bytes : List Byte), s.phase ≠ .fault → decode s.cmd ≠ .incomplete → step s = .next t →
    step (hostAppend bytes s) = .next (hostAppend bytes t)

/-! ### Invariants -/

/-- The state after reset meets the invariant. -/
def Obligations.ResetMeetsInvariant : Prop := StateInv State.reset

/-- Every step keeps the invariant: the block buffer's canonical form, `ERRCODE != 0x00` exactly in `FAULT` (R17), a legal
code, and a count that is a multiple of 512 while absorbing and of 8 when frozen (R12, R13). -/
def Obligations.StepKeepsInvariant : Prop :=
  ∀ s t : State, StateInv s → step s = .next t → StateInv t

/-- R19, R22, with 92_eei_decisions.md D15: between commands the block buffer holds nothing: empty before a step, it is empty after
it. That "nothing" is an empty buffer is log entry 3. -/
def Obligations.BufferHoldsNothing : Prop :=
  State.reset.buf = [] ∧ ∀ s t : State, s.buf = [] → step s = .next t → t.buf = []

/-- Whatever the host does between steps keeps the invariant, so it holds along every sequence of events. -/
def Obligations.EventsKeepInvariant : Prop :=
  ∀ (es : List HostEvent) (s t : State), StateInv s → applyEvents es s = .next t → StateInv t

/-- R17: `ERRCODE` is written once: as long as no reset occurs, it is zero until the first fault and keeps that fault's code
ever after. -/
def Obligations.ErrcodeIsSticky : Prop :=
  ∀ (es : List HostEvent) (s t : State), StateInv s → (∀ e ∈ es, e ≠ .reset) → applyEvents es s = .next t →
    (s.errcode ≠ 0x00 → t.errcode = s.errcode) ∧ (t.errcode ≠ 0x00 ↔ t.phase = .fault)

/-! ### Whole computations -/

/-- R13: after `INIT` and `k` accepted `BLOCK` commands, `BITLEN = 512·k` and `ACC` is the fold of the blocks into the
constants; every response is `00`. -/
def Obligations.StateAfterBlocks : Prop :=
  ∀ (s : State) (blocks : List (List Byte)), s.phase ≠ .fault → s.cmd = [] → (∀ B ∈ blocks, B.length = 64) →
    512 * blocks.length ≤ 2 ^ 64 - 1 →
    ∃ (rs : List (List Byte)) (t : State) (L : Count),
      issueAll (.init :: blocks.map .block) s = .next (rs, t) ∧ L.toNat = 512 * blocks.length ∧
      t.stage = .active ⟨blocks.foldl compress ⟨0x67452301, 0xEFCDAB89, 0x98BADCFE, 0x10325476, 0xC3D2E1F0⟩, L⟩ ∧
      rs = List.replicate (blocks.length + 1) [0x00] ∧ t.cmd = [] ∧ t.errcode = s.errcode

/-- R93, R101: on any in-memory message within `MAX_MSG_BITS`, started in any phase but `FAULT`, `DIGEST` returns the 20 bytes of
the closed form and leaves the engine in `IDLE`. -/
def Obligations.DigestIsClosedForm : Prop :=
  ∀ (m : List Byte) (s : State), s.phase ≠ .fault → s.cmd = [] → 8 * m.length ≤ 2 ^ 64 - 1 →
    ∃ t : State, runDigest (Source.ofBytes m) none s = .next (.digest (digestSpec m), t) ∧
      (digestSpec m).length = 20 ∧ t.phase = .idle ∧ t.cmd = [] ∧ t.errcode = s.errcode

/-- R97: however the source splits its reads, as long as none fails, `DIGEST(src, limit)` issues the command sequence of R93
for the first `min(limit, T)` bytes, and so gives the same result. -/
def Obligations.StreamingEquivalence : Prop :=
  ∀ (src : Source) (limit : Option Nat) (m : List Byte), ReadChoice.ioError ∉ src.script →
    m = (match limit with | none => src.rest | some n => src.rest.take n) →
    digestPlan src limit = ⟨digestCommands m, false⟩ ∧
    ∀ s : State, runDigest src limit s = runDigest (Source.ofBytes m) none s

/-- R99: over a source whose reads do not fail, `DIGEST` issues `floor(N/64) + 3` commands for the message of `N` bytes and
stops. -/
def Obligations.DigestTerminates : Prop :=
  ∀ (src : Source) (limit : Option Nat), ReadChoice.ioError ∉ src.script →
    (digestPlan src limit).ioError = false ∧
    (digestPlan src limit).cmds.length =
      (match limit with | none => src.rest.length | some n => min n src.rest.length) / 64 + 3

/-- R96: the digest depends on the message alone: two sources that deliver the same message, with any limits, started on
engines in any phase but `FAULT`, give the same 20 bytes. -/
def Obligations.DigestIsPure : Prop :=
  ∀ (src src' : Source) (limit limit' : Option Nat) (m : List Byte) (s s' : State),
    ReadChoice.ioError ∉ src.script → ReadChoice.ioError ∉ src'.script →
    m = (match limit with | none => src.rest | some n => src.rest.take n) →
    m = (match limit' with | none => src'.rest | some n => src'.rest.take n) →
    s.phase ≠ .fault → s'.phase ≠ .fault → s.cmd = [] → s'.cmd = [] → 8 * m.length ≤ 2 ^ 64 - 1 →
    ∃ (d : List Byte) (t t' : State), d.length = 20 ∧ runDigest src limit s = .next (.digest d, t) ∧
      runDigest src' limit' s' = .next (.digest d, t')

/-- R94, R101: after an `IOError` the commands issued are `INIT` and the full blocks read before it, the result is `NoDigest`,
and the engine is left in `ACTIVE`, not in `FAULT`, with `ERRCODE` as it was. -/
def Obligations.IOErrorGivesNoDigest : Prop :=
  ∀ (src : Source) (limit : Option Nat) (s : State), s.phase ≠ .fault → s.cmd = [] →
    8 * src.rest.length ≤ 2 ^ 64 - 1 → (digestPlan src limit).ioError = true →
    (∃ blocks : List (List Byte), (digestPlan src limit).cmds = .init :: blocks.map .block ∧
      (∀ B ∈ blocks, B.length = 64) ∧ blocks.flatten <+: src.rest) ∧
    ∃ t : State, runDigest src limit s = .next (.noDigest, t) ∧ t.phase = .active ∧ t.errcode = s.errcode

/-- R100: a message longer than `MAX_MSG_BITS` ends in `FAULT` with `E_OVERFLOW` and no digest. The host's issuing the later
commands all the same is the model's choice (log entry 16). -/
def Obligations.TooLongStreamFaults : Prop :=
  ∀ (m : List Byte) (s : State), s.phase ≠ .fault → s.cmd = [] → 8 * m.length > 2 ^ 64 - 1 →
    ∃ t : State, runDigest (Source.ofBytes m) none s = .next (.noResponse, t) ∧ t.phase = .fault ∧ t.errcode = 0x04

/-- R101: started in `FAULT`, `DIGEST` over any source, with any limit, gets no response at all and changes nothing but the bytes
discarded, also where the source fails. That `noResponse` stands for not returning is log entry 16, that every pending byte is
discarded by the step log entry 6: the model's choices. -/
def Obligations.DigestInFaultGetsNothing : Prop :=
  ∀ (src : Source) (limit : Option Nat) (s : State), s.phase = .fault →
    runDigest src limit s = .next (.noResponse, { s with cmd := [] })

/-- R101, R94, R100: when `DIGEST` returns a digest the engine is in `IDLE`, when it returns `NoDigest` in `ACTIVE`, and neither
from a start in `FAULT`; when it returns nothing the engine is in `FAULT`. `noResponse` and the premise that no earlier packet
is pending are the model's choices (log entry 16). -/
def Obligations.DigestReturnsInPhase : Prop :=
  ∀ (src : Source) (limit : Option Nat) (s t : State) (r : DigestResult), s.cmd = [] →
    runDigest src limit s = .next (r, t) →
    (∀ d, r = .digest d → s.phase ≠ .fault ∧ t.phase = .idle ∧ d.length = 20) ∧
    (r = .noDigest → s.phase ≠ .fault ∧ t.phase = .active) ∧ (r = .noResponse → t.phase = .fault)

/-- R109, R122, R126: the packets of any sequence of `DIGEST` computations within `MAX_MSG_BITS`, given to an engine after
reset, are a completed run; so are those of any command sequence that keeps to the phase table, the legal lengths and
`MAX_MSG_BITS`, computations abandoned by `INIT` (R71) among them. -/
def Obligations.LawfulRunsComplete : Prop :=
  (∀ messages : List (List Byte), (∀ m ∈ messages, 8 * m.length ≤ 2 ^ 64 - 1) →
    RunCompletes ((messages.flatMap digestCommands).flatMap encode)) ∧
  (∀ cmds : List Instr, lawful .idle 0 cmds = true → RunCompletes (cmds.flatMap encode))

/-- R126: a digest computation within a run is complete when its `EXTRACT` is answered: the digest answered is that of the
message its payloads make up; and after any lawful commands the computation of any message within `MAX_MSG_BITS` completes
with its digest, whatever bytes follow, a run that faults later or ends inside a packet among them. -/
def Obligations.CompletedComputationInRun : Prop :=
  (∀ (bytes last D : List Byte) (blocks : List (List Byte)), DigestCompletesInRun bytes blocks last D →
    D = digestSpec (blocks.flatten ++ last) ∧ D.length = 20) ∧
  (∀ (before : List Instr) (m after : List Byte), lawful .idle 0 before = true → 8 * m.length ≤ 2 ^ 64 - 1 →
    DigestCompletesInRun ((before ++ digestCommands m).flatMap encode ++ after) (fullBlocks m)
      (m.drop (64 * (m.length / 64))) (digestSpec m))

/-- The known-answer vectors of the source (95_test_vectors.md section 1): the empty message and the two sentences, in hex
form. -/
def Obligations.KnownAnswers : Prop :=
  hexForm (digestSpec []) = "da39a3ee5e6b4b0d3255bfef95601890afd80709".toList ∧
  hexForm (digestSpec ("The quick brown fox jumps over the lazy dog".toList.map fun c => BitVec.ofNat 8 c.toNat)) =
    "2fd4e1c67a2d28fced849ee1bb76e7391b93eb12".toList ∧
  hexForm (digestSpec ("The quick brown fox jumps over the lazy dog.".toList.map fun c => BitVec.ofNat 8 c.toNat)) =
    "408d94384216f890ff7a0c3528e8bed1e0b01621".toList

/-- R95: the hex form of a digest is 40 lower-case hex characters; characters `2i` and `2i + 1` are the high and the low nibble
of byte `i`. -/
def Obligations.HexFormRule : Prop :=
  ∀ d : List Byte, d.length = 20 →
    (hexForm d).length = 40 ∧ (∀ c ∈ hexForm d, c ∈ "0123456789abcdef".toList) ∧
    ∀ (i : Nat) (b : Byte), d[i]? = some b →
      (hexForm d)[2 * i]? = "0123456789abcdef".toList[b.toNat / 16]? ∧
      (hexForm d)[2 * i + 1]? = "0123456789abcdef".toList[b.toNat % 16]?

/-! ### Several engines -/

/-- R39: any interleaving of events at the engines of a system gives each engine what its own events alone give it. That an
event naming no engine of the system does nothing is the model's choice (log entry 18). -/
def Obligations.EnginesShareNothing : Prop :=
  ∀ (es : List (Nat × HostEvent)) (sys : EngineSystem),
    ∃ sys' : EngineSystem, systemApplyAll es sys = .next sys' ∧ sys'.length = sys.length ∧
      ∀ (k : Nat) (s : State), sys[k]? = some s →
        ∃ t, applyEvents (eventsOf k es) s = .next t ∧ sys'[k]? = some t

/-! ### The assembler -/

/-- R51, R54: a legal packet, disassembled, printed as a line and assembled again, is the same packet; a word that is not legal
is printed as `.cmd` with its value and assembles to its two bytes and the payload given. The white space and the case of
hex digits are the model's choice (log entry 14). -/
def Obligations.DisassembleAssemble : Prop :=
  (∀ (i : Instr) (cw : CmdWord), i.wellFormed = true → cw = i.op.byte ++ i.len →
    assembleLine (printCommand (disassemble cw i.payload)) = .ok (encode i)) ∧
  (∀ (cw : CmdWord) (payload : List Byte), (∀ op, classify cw ≠ .legal op) →
    assembleLine (printCommand (disassemble cw payload)) = .ok (cw.extractLsb' 8 8 :: cw.extractLsb' 0 8 :: payload))

/-- R51, R52: the assembler computes `LEN`, rejects a `BLOCK` whose bytes are not 64 and a `FINAL` whose bytes are more than
63, emits `.cmd` as given, the word and then the bytes, and expands `DIGEST`. In the first two clauses, the lines of text, the
blank between the parts of a line is the model's choice (log entry 14); the others are about commands, not text. -/
def Obligations.AssembleRule : Prop :=
  assembleLine "FINAL \"abc\"".toList = .ok [0x03, 0x03, 0x61, 0x62, 0x63] ∧
  assembleLine ".cmd 0x0340".toList = .ok [0x03, 0x40] ∧
  (∀ b : AsmBytes, b.denote.length ≠ 64 → assemble (.block b) = .error .blockNot64) ∧
  (∀ b : AsmBytes, 63 < b.denote.length → assemble (.final b) = .error .finalOver63) ∧
  (∀ b : AsmBytes, b.denote.length = 64 → assemble (.block b) = .ok (encode (.block b.denote))) ∧
  (∀ b : AsmBytes, b.denote.length ≤ 63 → assemble (.final b) = .ok (encode (.final b.denote))) ∧
  assemble .init = .ok [0x01, 0x00] ∧
  assemble .extract = .ok [0x04, 0x00] ∧
  (∀ cw : CmdWord, assemble (.raw cw none) = .ok [cw.extractLsb' 8 8, cw.extractLsb' 0 8]) ∧
  (∀ (cw : CmdWord) (b : AsmBytes),
    assemble (.raw cw (some b)) = .ok (cw.extractLsb' 8 8 :: cw.extractLsb' 0 8 :: b.denote)) ∧
  (∀ b : AsmBytes, assemble (.digest b) = .ok ((digestCommands b.denote).flatMap encode))
end

