-- ==== Sys2Proof/Laws/Decode.lean ====
section
/-! SUPPORT. The small lemmas of the decoder and the encoder. -/

namespace Sys2Proof

@[simp] theorem Config.blockBytes_eq : Config.blockBytes = 64 := rfl
@[simp] theorem Config.blockBits_eq : Config.blockBits = 512 := rfl
@[simp] theorem Config.schedWords_eq : Config.schedWords = 80 := rfl
@[simp] theorem Config.finalMax_eq : Config.finalMax = 63 := rfl
@[simp] theorem Config.tailMax_eq : Config.tailMax = 128 := rfl
@[simp] theorem Config.digestBytes_eq : Config.digestBytes = 20 := rfl
@[simp] theorem Config.maxMsgBits_eq : Config.maxMsgBits = 2 ^ 64 - 1 := rfl

/-- The operation code byte names its operation. -/
@[simp] theorem ofByte_byte (op : Op) : Op.ofByte op.byte = some op := by cases op <;> rfl

/-- `OP` values that name an operation are its byte. -/
theorem ofByte_eq_some {b : Byte} {op : Op} (h : Op.ofByte b = some op) : b = op.byte := by
  unfold Op.ofByte at h
  split_ifs at h <;> cases h <;> assumption

/-- `OP` values that name no operation: the reserved ones (30_encoding.md R48). -/
theorem ofByte_eq_none {b : Byte} : Op.ofByte b = none ↔ b ≠ 0x01 ∧ b ≠ 0x02 ∧ b ≠ 0x03 ∧ b ≠ 0x04 := by
  unfold Op.ofByte
  split_ifs <;> simp_all

/-- The operation and the payload give back the command. -/
@[simp] theorem op_instr_payload (i : Instr) : i.op.instr i.payload = i := by cases i <;> rfl

/-- A well-formed command's payload length is legal for its operation. -/
theorem lenLegal_of_wellFormed {i : Instr} (h : i.wellFormed = true) : i.op.lenLegal i.payload.length = true := by
  cases i <;> first | rfl | exact h

/-- A payload of legal length makes a well-formed command. -/
theorem wellFormed_instr {op : Op} {p : List Byte} (h : op.lenLegal p.length = true) : (op.instr p).wellFormed = true := by
  cases op <;> first | rfl | exact h

/-- A legal payload length makes the command from its operation and payload keep both. -/
theorem payload_instr {op : Op} {p : List Byte} (h : op.lenLegal p.length = true) : (op.instr p).payload = p := by
  cases op <;> simp_all [Instr.payload, Op.instr, Op.lenLegal, List.length_eq_zero_iff]

@[simp] theorem op_of_instr (op : Op) (p : List Byte) : (op.instr p).op = op := by cases op <;> rfl

/-- A well-formed payload is at most 64 bytes, so `LEN` holds its length. -/
theorem payload_length_le {i : Instr} (h : i.wellFormed = true) : i.payload.length ≤ 64 := by
  cases i <;> simp_all [Instr.wellFormed, Instr.payload, Config.finalMax]
  omega

/-- `LEN` of a well-formed command is its payload length. -/
theorem len_toNat {i : Instr} (h : i.wellFormed = true) : i.len.toNat = i.payload.length := by
  have := payload_length_le h
  simp only [Instr.len, BitVec.toNat_ofNat]
  omega

/-- The decoder on two bytes or more: the command word first, the payload after it. -/
theorem decode_cons_cons (op len : Byte) (rest : List Byte) :
    decode (op :: len :: rest) =
      match Op.ofByte op with
      | none => .reservedOp rest
      | some o =>
        if o.lenLegal len.toNat then
          if len.toNat ≤ rest.length then .packet (o.instr (rest.take len.toNat)) (rest.drop len.toNat)
          else .incomplete
        else .illegalLen rest := rfl

@[simp] theorem decode_nil : decode [] = .incomplete := rfl
@[simp] theorem decode_singleton (b : Byte) : decode [b] = .incomplete := rfl

end Sys2Proof
end

