-- ==== Sys2Proof/Laws/Memory.lean ====
section
/-! SUPPORT. The laws of the block buffer: read after write, a write leaves every other address alone, and every write keeps
the canonical form. -/

namespace Sys2Proof.Machine

/-- A byte written is the byte read there. -/
@[simp] theorem readByte_writeByte_same (m : Memory) (x : Nat) (v : Byte) :
    readByte (writeByte m x v) x = some v := by
  induction m with
  | nil => simp [writeByte, readByte]
  | cons c m ih =>
    obtain ⟨a, b⟩ := c
    unfold writeByte
    split
    · simp [readByte]
    · split
      · simp [readByte]
      · rename_i h1 h2
        simp [readByte, ih, show ¬ a = x from fun h => h2 h.symm]

/-- A write leaves every other address alone. -/
theorem readByte_writeByte_ne (m : Memory) {x y : Nat} (v : Byte) (h : y ≠ x) :
    readByte (writeByte m x v) y = readByte m y := by
  induction m with
  | nil => simp [writeByte, readByte, Ne.symm h]
  | cons c m ih =>
    obtain ⟨a, b⟩ := c
    unfold writeByte
    split
    · simp [readByte, Ne.symm h]
    · split
      · rename_i h1 h2
        subst h2
        simp [readByte, Ne.symm h]
      · simp only [readByte, ih]

/-- Bytes written leave every address outside them alone. -/
theorem readByte_writeBytes_outside (bs : List Byte) (m : Memory) (x y : Nat) (h : y < x ∨ x + bs.length ≤ y) :
    readByte (writeBytes m x bs) y = readByte m y := by
  induction bs generalizing m x with
  | nil => rfl
  | cons b bs ih =>
    simp only [List.length_cons] at h
    rw [writeBytes, ih _ _ (by omega), readByte_writeByte_ne _ _ (by omega)]

/-- Each byte written is the byte read at its place. -/
theorem readByte_writeBytes_inside (bs : List Byte) (m : Memory) (x k : Nat) (h : k < bs.length) :
    readByte (writeBytes m x bs) (x + k) = some bs[k] := by
  induction bs generalizing m x k with
  | nil => simp at h
  | cons b bs ih =>
    cases k with
    | zero => rw [writeBytes, readByte_writeBytes_outside _ _ _ _ (by omega)]; simp
    | succ k =>
      have h' : k < bs.length := by simpa using h
      have := ih (writeByte m x b) (x + 1) k h'
      rw [writeBytes, show x + (k + 1) = x + 1 + k by omega, this]
      simp

/-- Reading answers the bytes found one by one. -/
theorem readBytes_eq_some (m : Memory) (bs : List Byte) (x : Nat)
    (h : ∀ k (hk : k < bs.length), readByte m (x + k) = some bs[k]) : readBytes m x bs.length = some bs := by
  induction bs generalizing x with
  | nil => rfl
  | cons b bs ih =>
    have h0 : readByte m x = some b := h 0 (by simp)
    have h1 : readBytes m (x + 1) bs.length = some bs := by
      refine ih (x + 1) fun k hk => ?_
      have := h (k + 1) (by simpa using hk)
      simpa [show x + (k + 1) = x + 1 + k by omega] using this
    simp [readBytes, h0, h1]

/-- Bytes written are the bytes read back. -/
theorem readBytes_writeBytes (m : Memory) (x : Nat) (bs : List Byte) :
    readBytes (writeBytes m x bs) x bs.length = some bs :=
  readBytes_eq_some _ _ _ fun k hk => readByte_writeBytes_inside bs m x k hk

/-- What `writeByte` may list: the address written, and addresses listed before. -/
theorem mem_writeByte {m : Memory} {x : Nat} {v : Byte} {c : Host.Cell} (h : c ∈ writeByte m x v) :
    c = (x, v) ∨ c ∈ m := by
  induction m with
  | nil => simpa [writeByte] using h
  | cons d m ih =>
    obtain ⟨a, b⟩ := d
    unfold writeByte at h
    split at h
    · simpa using h
    · split at h
      · rcases List.mem_cons.1 h with h | h
        · exact .inl h
        · exact .inr (List.mem_cons_of_mem _ h)
      · rcases List.mem_cons.1 h with h | h
        · exact .inr (h ▸ List.mem_cons_self)
        · exact (ih h).imp id (List.mem_cons_of_mem _)

/-- A byte written inside the buffer keeps the canonical form. -/
theorem wf_writeByte {m : Memory} {x : Nat} (v : Byte) (h : Memory.wf m) (hx : x < Config.blockBytes) :
    Memory.wf (writeByte m x v) := by
  refine ⟨?_, fun c hc => (mem_writeByte hc).elim (fun e => e ▸ hx) (h.2 c)⟩
  have hp := h.1
  clear h hx
  induction m with
  | nil => simp [writeByte]
  | cons d m ih =>
    obtain ⟨a, b⟩ := d
    obtain ⟨h1, h2⟩ := List.pairwise_cons.1 hp
    unfold writeByte
    split
    · rename_i hxa
      refine List.pairwise_cons.2 ⟨fun c hc => ?_, hp⟩
      rcases List.mem_cons.1 hc with rfl | hc
      · exact hxa
      · exact Nat.lt_trans hxa (h1 c hc)
    · split
      · rename_i hxa
        exact List.pairwise_cons.2 ⟨fun c hc => hxa ▸ h1 c hc, h2⟩
      · refine List.pairwise_cons.2 ⟨fun c hc => ?_, ih h2⟩
        rcases mem_writeByte hc with rfl | hc
        · show a < x; omega
        · exact h1 c hc

/-- Bytes written inside the buffer keep the canonical form. -/
theorem wf_writeBytes (bs : List Byte) {m : Memory} {x : Nat} (h : Memory.wf m)
    (hx : x + bs.length ≤ Config.blockBytes) : Memory.wf (writeBytes m x bs) := by
  induction bs generalizing m x with
  | nil => exact h
  | cons b bs ih =>
    simp only [List.length_cons] at hx
    exact ih (wf_writeByte b h (by omega)) (by omega)

/-- `MemWrite` in range: everything it does. -/
theorem memWrite_ok {m : Memory} {x : Nat} {bs : List Byte} (h : x + bs.length ≤ Config.blockBytes) :
    memWrite m x bs = .ok (writeBytes m x bs) := if_pos h

/-- `MemWrite` keeps the canonical form. -/
theorem memWrite_wf {m m' : Memory} {x : Nat} {bs : List Byte} (h : Memory.wf m) (e : memWrite m x bs = .ok m') :
    Memory.wf m' := by
  unfold memWrite at e
  split at e
  · cases e; exact wf_writeBytes bs h ‹_›
  · cases e

/-- A released address holds no value; every other address is left alone. -/
theorem readByte_releaseBytes (m : Memory) (x n y : Nat) :
    readByte (releaseBytes m x n) y = if y < x ∨ x + n ≤ y then readByte m y else none := by
  induction m with
  | nil => simp [releaseBytes, readByte]
  | cons c m ih =>
    obtain ⟨a, b⟩ := c
    simp only [releaseBytes, List.filter_cons, decide_eq_true_eq, Bool.or_eq_true] at ih ⊢
    by_cases hay : a = y
    · subst hay
      split <;> simp_all [readByte]
    · split <;> simp only [readByte, hay, if_false, ih]

/-- A byte stored to a released address leaves no trace. -/
theorem releaseBytes_writeByte (m : Memory) {x n y : Nat} (v : Byte) (h : ¬ (y < x ∨ x + n ≤ y)) :
    releaseBytes (writeByte m y v) x n = releaseBytes m x n := by
  induction m with
  | nil => simp_all [releaseBytes, writeByte]
  | cons c m ih =>
    obtain ⟨a, b⟩ := c
    unfold writeByte
    split
    · simp_all [releaseBytes]
    · split
      · simp_all [releaseBytes]
      · simp only [releaseBytes, List.filter_cons] at ih ⊢
        rw [ih]

/-- Bytes stored to released addresses leave no trace. -/
theorem releaseBytes_writeBytes (bs : List Byte) (m : Memory) {x n y : Nat} (h : x ≤ y) (h' : y + bs.length ≤ x + n) :
    releaseBytes (writeBytes m y bs) x n = releaseBytes m x n := by
  induction bs generalizing m y with
  | nil => rfl
  | cons b bs ih =>
    simp only [List.length_cons] at h'
    rw [writeBytes, ih _ (by omega) (by omega), releaseBytes_writeByte _ _ (by omega)]

/-- Releasing bytes keeps the canonical form. -/
theorem wf_releaseBytes {m : Memory} (h : Memory.wf m) (x n : Nat) : Memory.wf (releaseBytes m x n) :=
  ⟨h.1.filter _, fun c hc => h.2 c (List.mem_filter.1 hc).1⟩

/-- A buffer in canonical form holds nothing once it is released. -/
theorem releaseBlock_of_wf {m : Memory} (h : Memory.wf m) : releaseBlock m = [] := by
  refine List.filter_eq_nil_iff.2 fun c hc => ?_
  have hlt : c.1 < 64 := h.2 c hc
  simp [blockAddr, hlt]

/-- An empty buffer is in canonical form. -/
theorem wf_nil : Memory.wf [] := ⟨List.Pairwise.nil, fun _ h => nomatch h⟩

/-- No address below every listed one is listed. -/
theorem readByte_eq_none_of_lt {m : Memory} {x : Nat} (h : ∀ c ∈ m, x < c.1) : readByte m x = none := by
  induction m with
  | nil => rfl
  | cons d m ih =>
    obtain ⟨a, b⟩ := d
    have ha : x < a := h (a, b) List.mem_cons_self
    rw [readByte, if_neg (by omega), ih fun c hc => h c (List.mem_cons_of_mem _ hc)]

/-- Canonical buffers that read alike are equal. -/
theorem wf_ext {m m' : Memory} (h : Memory.wf m) (h' : Memory.wf m') (e : ∀ x, readByte m x = readByte m' x) :
    m = m' := by
  have hp := h.1
  have hp' := h'.1
  clear h h'
  induction m generalizing m' with
  | nil =>
    cases m' with
    | nil => rfl
    | cons d m' => have := e d.1; simp [readByte] at this
  | cons d m ih =>
    cases m' with
    | nil => have := e d.1; simp [readByte] at this
    | cons d' m' =>
      obtain ⟨a, b⟩ := d
      obtain ⟨a', b'⟩ := d'
      obtain ⟨h1, h2⟩ := List.pairwise_cons.1 hp
      obtain ⟨h1', h2'⟩ := List.pairwise_cons.1 hp'
      have haa : a = a' := by
        rcases Nat.lt_trichotomy a a' with hl | hl | hl
        · have := e a
          rw [readByte, if_pos rfl, readByte_eq_none_of_lt] at this
          · cases this
          · intro c hc
            rcases List.mem_cons.1 hc with rfl | hc
            · exact hl
            · exact Nat.lt_trans hl (h1' c hc)
        · exact hl
        · have := e a'
          rw [readByte_eq_none_of_lt, readByte, if_pos rfl] at this
          · cases this
          · intro c hc
            rcases List.mem_cons.1 hc with rfl | hc
            · exact hl
            · exact Nat.lt_trans hl (h1 c hc)
      subst haa
      have hb : b = b' := by simpa [readByte] using e a
      subst hb
      rw [ih (m' := m') (fun x => ?_) h2 h2']
      rcases Nat.decEq a x with hx | hx
      · simpa [readByte, hx] using e x
      · subst hx
        rw [readByte_eq_none_of_lt h1, readByte_eq_none_of_lt h1']

end Sys2Proof.Machine
end

