-- ==== Sys2Proof/Laws/State.lean ====
section
/-! SUPPORT. One lemma for each field and each update of the state, so that no proof unfolds a record update. -/

namespace Sys2Proof.Machine

variable (s : State) (x : Stage) (b : Byte) (m : Memory) (bytes : List Byte) (c : FaultCode) (n : Nat)

@[simp] theorem setStage_stage : (s.setStage x).stage = x := rfl
@[simp] theorem setStage_errcode : (s.setStage x).errcode = s.errcode := rfl
@[simp] theorem setStage_buf : (s.setStage x).buf = s.buf := rfl
@[simp] theorem setStage_cmd : (s.setStage x).cmd = s.cmd := rfl
@[simp] theorem setStage_resp : (s.setStage x).resp = s.resp := rfl

@[simp] theorem setErrcode_stage : (s.setErrcode b).stage = s.stage := rfl
@[simp] theorem setErrcode_errcode : (s.setErrcode b).errcode = b := rfl
@[simp] theorem setErrcode_buf : (s.setErrcode b).buf = s.buf := rfl
@[simp] theorem setErrcode_cmd : (s.setErrcode b).cmd = s.cmd := rfl
@[simp] theorem setErrcode_resp : (s.setErrcode b).resp = s.resp := rfl

@[simp] theorem setBuf_stage : (s.setBuf m).stage = s.stage := rfl
@[simp] theorem setBuf_errcode : (s.setBuf m).errcode = s.errcode := rfl
@[simp] theorem setBuf_buf : (s.setBuf m).buf = m := rfl
@[simp] theorem setBuf_cmd : (s.setBuf m).cmd = s.cmd := rfl
@[simp] theorem setBuf_resp : (s.setBuf m).resp = s.resp := rfl

@[simp] theorem setCmd_stage : (s.setCmd bytes).stage = s.stage := rfl
@[simp] theorem setCmd_errcode : (s.setCmd bytes).errcode = s.errcode := rfl
@[simp] theorem setCmd_buf : (s.setCmd bytes).buf = s.buf := rfl
@[simp] theorem setCmd_cmd : (s.setCmd bytes).cmd = bytes := rfl
@[simp] theorem setCmd_resp : (s.setCmd bytes).resp = s.resp := rfl

@[simp] theorem respond_stage : (s.respond bytes).stage = s.stage := rfl
@[simp] theorem respond_errcode : (s.respond bytes).errcode = s.errcode := rfl
@[simp] theorem respond_buf : (s.respond bytes).buf = s.buf := rfl
@[simp] theorem respond_cmd : (s.respond bytes).cmd = s.cmd := rfl
@[simp] theorem respond_resp : (s.respond bytes).resp = s.resp ++ bytes := rfl

@[simp] theorem takeFault_stage : (takeFault c s).stage = .fault := rfl
@[simp] theorem takeFault_errcode : (takeFault c s).errcode = c.byte := rfl
@[simp] theorem takeFault_buf : (takeFault c s).buf = s.buf := rfl
@[simp] theorem takeFault_cmd : (takeFault c s).cmd = s.cmd := rfl
@[simp] theorem takeFault_resp : (takeFault c s).resp = s.resp ++ [c.byte] := rfl

@[simp] theorem hostAppend_stage : (hostAppend bytes s).stage = s.stage := rfl
@[simp] theorem hostAppend_errcode : (hostAppend bytes s).errcode = s.errcode := rfl
@[simp] theorem hostAppend_buf : (hostAppend bytes s).buf = s.buf := rfl
@[simp] theorem hostAppend_cmd : (hostAppend bytes s).cmd = s.cmd ++ bytes := rfl
@[simp] theorem hostAppend_resp : (hostAppend bytes s).resp = s.resp := rfl

@[simp] theorem hostTake_stage : (hostTake n s).stage = s.stage := rfl
@[simp] theorem hostTake_errcode : (hostTake n s).errcode = s.errcode := rfl
@[simp] theorem hostTake_buf : (hostTake n s).buf = s.buf := rfl
@[simp] theorem hostTake_cmd : (hostTake n s).cmd = s.cmd := rfl
@[simp] theorem hostTake_resp : (hostTake n s).resp = s.resp.drop n := rfl

@[simp] theorem setCmd_setCmd (bytes' : List Byte) : (s.setCmd bytes).setCmd bytes' = s.setCmd bytes' := rfl
@[simp] theorem setCmd_self : s.setCmd s.cmd = s := rfl

/-- `PHASE` depends on the stage alone. -/
theorem phase_def : s.phase = s.stage.phase := rfl

@[simp] theorem phase_setStage : (s.setStage x).phase = x.phase := rfl
@[simp] theorem phase_setErrcode : (s.setErrcode b).phase = s.phase := rfl
@[simp] theorem phase_setBuf : (s.setBuf m).phase = s.phase := rfl
@[simp] theorem phase_setCmd : (s.setCmd bytes).phase = s.phase := rfl
@[simp] theorem phase_respond : (s.respond bytes).phase = s.phase := rfl
@[simp] theorem phase_takeFault : (takeFault c s).phase = .fault := rfl
@[simp] theorem phase_hostAppend : (hostAppend bytes s).phase = s.phase := rfl
@[simp] theorem phase_hostTake : (hostTake n s).phase = s.phase := rfl

@[simp] theorem stage_phase_idle : Stage.phase .idle = .idle := rfl
@[simp] theorem stage_phase_active (d : DigestState) : Stage.phase (.active d) = .active := rfl
@[simp] theorem stage_phase_frozen (d : DigestState) : Stage.phase (.frozen d) = .frozen := rfl
@[simp] theorem stage_phase_fault : Stage.phase .fault = .fault := rfl

/-- `PHASE = FAULT` is one stage. -/
theorem phase_eq_fault : s.phase = .fault ↔ s.stage = .fault := by
  cases s with | mk stage _ _ _ _ => cases stage <;> simp [State.phase, Stage.phase]

/-- `PHASE = IDLE` is one stage. -/
theorem phase_eq_idle : s.phase = .idle ↔ s.stage = .idle := by
  cases s with | mk stage _ _ _ _ => cases stage <;> simp [State.phase, Stage.phase]

/-- `PHASE = ACTIVE` is a stage with a `DigestState`. -/
theorem phase_eq_active : s.phase = .active ↔ ∃ d, s.stage = .active d := by
  cases s with | mk stage _ _ _ _ => cases stage <;> simp [State.phase, Stage.phase]

/-- `PHASE = FROZEN` is a stage with a `DigestState`. -/
theorem phase_eq_frozen : s.phase = .frozen ↔ ∃ d, s.stage = .frozen d := by
  cases s with | mk stage _ _ _ _ => cases stage <;> simp [State.phase, Stage.phase]

/-- Equal fields, equal states. -/
theorem state_ext {s t : State} (h1 : s.stage = t.stage) (h2 : s.errcode = t.errcode) (h3 : s.buf = t.buf)
    (h4 : s.cmd = t.cmd) (h5 : s.resp = t.resp) : s = t := by
  cases s; cases t; simp_all

end Sys2Proof.Machine
end

