-- ==== Sys2Proof/Laws/Ops.lean ====
section
/-! SUPPORT. What each shared operation can do, said once. -/

namespace Sys2Proof.Machine

/-- The codes are 1 to 4 (60_exceptions.md R105). -/
theorem byte_ne_zero (c : FaultCode) : c.byte ≠ 0x00 := by cases c <;> decide

theorem byte_toNat_le (c : FaultCode) : c.byte.toNat ≤ 4 := by cases c <;> decide

/-- One block of 64 bytes through the buffer: the accumulator is the compression of that block, and the buffer holds it. -/
theorem foldBlock_ok (acc : Accum) (buf : Memory) {p : List Byte} (h : p.length = 64) :
    foldBlock acc buf p = .ok (compress acc p, writeBytes buf blockAddr p) := by
  have hr := readBytes_writeBytes buf blockAddr p
  rw [h] at hr
  simp [foldBlock, memWrite, memRead, blockAddr, h] at hr ⊢
  simp [hr]

/-- A tail of one block. -/
theorem foldTail_one (acc : Accum) (buf : Memory) {t : List Byte} (h : t.length = 64) :
    foldTail acc buf t = .ok (compress acc t, writeBytes buf blockAddr t) := by
  have ht : t.take 64 = t := List.take_of_length_le (by omega)
  simp [foldTail, ht, foldBlock_ok acc buf h, h]

/-- A tail of two blocks: the first, then the second. -/
theorem foldTail_two (acc : Accum) (buf : Memory) {t : List Byte} (h : t.length = 128) :
    foldTail acc buf t = .ok (compress (compress acc (t.take 64)) (t.drop 64),
      writeBytes (writeBytes buf blockAddr (t.take 64)) blockAddr (t.drop 64)) := by
  have h1 : (t.take 64).length = 64 := by simp [h]
  have h2 : (t.drop 64).length = 64 := by simp [h]
  simp [foldTail, foldBlock_ok _ _ h1, foldBlock_ok _ _ h2, h]

@[simp] theorem be64Bytes_length (v : Count) : (be64Bytes v).length = 8 := rfl
@[simp] theorem be32Bytes_length (v : Word) : (be32Bytes v).length = 4 := rfl
@[simp] theorem digestBytes_length (a : Accum) : (digestBytes a).length = 20 := rfl
@[simp] theorem zeros_length (n : Nat) : (zeros n).length = n := List.length_replicate

/-- The padded tail is one block or two. -/
theorem paddedTail_length (p : List Byte) (L : Count) (h : p.length ≤ 63) :
    (paddedTail p L).length = if p.length ≤ 55 then 64 else 128 := by
  simp only [paddedTail, zeroCount, List.length_append, zeros_length, be64Bytes_length, List.length_singleton]
  split <;> omega

/-- Outside `FAULT` a command runs. -/
theorem unlessFault_of_ne {s : State} (h : s.phase ≠ .fault) (body : Out) : unlessFault s body = body := by
  unfold unlessFault
  cases hs : s.stage <;> simp_all [State.phase]

/-- In `FAULT` nothing runs. -/
theorem unlessFault_fault {s : State} (h : s.phase = .fault) (body : Out) : unlessFault s body = .next s := by
  unfold unlessFault
  rw [(phase_eq_fault s).1 h]

/-- The length check: pass, or `E_LENGTH`. -/
theorem requireLength_eq (legal : Bool) (s : State) (body : Out) :
    requireLength legal s body = if legal then body else .next (takeFault .length s) := rfl

/-- The phase check of `BLOCK` and `FINAL`: pass in `ACTIVE`. -/
theorem requireActive_active {s : State} {d : DigestState} (h : s.stage = .active d) (body : DigestState → Out) :
    requireActive s body = body d := by simp [requireActive, h]

/-- The phase check of `BLOCK` and `FINAL`: `E_PHASE` elsewhere. -/
theorem requireActive_of_ne {s : State} (h : s.phase ≠ .active) (body : DigestState → Out) :
    requireActive s body = .next (takeFault .phase s) := by
  unfold requireActive
  cases hs : s.stage <;> simp_all [State.phase, raise]

/-- The phase check of `EXTRACT`: pass in `FROZEN`. -/
theorem requireFrozen_frozen {s : State} {d : DigestState} (h : s.stage = .frozen d) (body : DigestState → Out) :
    requireFrozen s body = body d := by simp [requireFrozen, h]

/-- The phase check of `EXTRACT`: `E_PHASE` elsewhere. -/
theorem requireFrozen_of_ne {s : State} (h : s.phase ≠ .frozen) (body : DigestState → Out) :
    requireFrozen s body = .next (takeFault .phase s) := by
  unfold requireFrozen
  cases hs : s.stage <;> simp_all [State.phase, raise]

/-- The overflow check: pass, or `E_OVERFLOW`. -/
theorem requireRoom_eq (d : DigestState) (bits : Nat) (s : State) (body : Out) :
    requireRoom d bits s body =
      if d.bitlen.toNat + bits ≤ 2 ^ 64 - 1 then body else .next (takeFault .overflow s) := by
  simp [requireRoom, hasRoom, raise, Config.maxMsgBits]

end Sys2Proof.Machine
end

