-- ==== Sys2Proof/Laws/Exec.lean ====
section
/-! SUPPORT. Everything a command can do, said once: it is discarded in `FAULT`, it faults, or it has its own effect. -/

namespace Sys2Proof.Machine

/-- The effect of an accepted `BLOCK` on 64 bytes. -/
theorem absorbBlock_ok {p : List Byte} (h : p.length = 64) (d : DigestState) (s : State) :
    absorbBlock p d s = .next (((s.setBuf (releaseBlock s.buf)).setStage
      (.active ⟨compress d.acc p, d.bitlen + 512⟩)).respond [statusOk]) := by
  simp only [absorbBlock, foldBlock_ok d.acc s.buf h, releaseBlock]
  rw [releaseBytes_writeBytes p _ (Nat.le_refl _) (by rw [h])]

/-- The accumulator after the one or two blocks of a padded tail. -/
def foldTailAccum (acc : Accum) (t : List Byte) : Accum :=
  if t.length = 64 then compress acc t else compress (compress acc (t.take 64)) (t.drop 64)

/-- The effect of an accepted `FINAL` on at most 63 bytes. -/
theorem finishDigest_ok {p : List Byte} (h : p.length ≤ 63) (d : DigestState) (s : State) :
    finishDigest p d s =
      let L := d.bitlen + payloadBits (Instr.final p).len
      .next (((s.setBuf (releaseBlock s.buf)).setStage
        (.frozen ⟨foldTailAccum d.acc (paddedTail p L), L⟩)).respond [statusOk]) := by
  have hl := paddedTail_length p (d.bitlen + payloadBits (Instr.final p).len) h
  split at hl
  · simp only [finishDigest, foldTailAccum, foldTail_one _ _ hl, hl, if_true, releaseBlock]
    rw [releaseBytes_writeBytes _ _ (Nat.le_refl _) (by rw [hl])]
  · simp only [finishDigest, foldTailAccum, foldTail_two _ _ hl, hl, releaseBlock]
    rw [releaseBytes_writeBytes _ _ (Nat.le_refl _) (by simp [hl]),
      releaseBytes_writeBytes _ _ (Nat.le_refl _) (by simp [hl])]
    rfl

/-- What executing a command can do. -/
inductive ExecCase (i : Instr) (s : State) : State → Prop where
  | discarded (h : s.phase = .fault) : ExecCase i s s
  | faulted (c : FaultCode) (h : s.phase ≠ .fault) : ExecCase i s (takeFault c s)
  | init (e : i = .init) (h : s.phase ≠ .fault) :
      ExecCase i s ((s.setStage (.active ⟨initialAccum, 0⟩)).respond [statusOk])
  | block (p : List Byte) (d : DigestState) (e : i = .block p) (hp : p.length = 64) (hs : s.stage = .active d)
      (hr : d.bitlen.toNat + 512 ≤ 2 ^ 64 - 1) :
      ExecCase i s (((s.setBuf (releaseBlock s.buf)).setStage
        (.active ⟨compress d.acc p, d.bitlen + 512⟩)).respond [statusOk])
  | final (p : List Byte) (d : DigestState) (e : i = .final p) (hp : p.length ≤ 63) (hs : s.stage = .active d)
      (hr : d.bitlen.toNat + 8 * p.length ≤ 2 ^ 64 - 1) :
      ExecCase i s
        (((s.setBuf (releaseBlock s.buf)).setStage
          (.frozen ⟨foldTailAccum d.acc (paddedTail p (d.bitlen + payloadBits (Instr.final p).len)),
            d.bitlen + payloadBits (Instr.final p).len⟩)).respond [statusOk])
  | extract (d : DigestState) (e : i = .extract) (hs : s.stage = .frozen d) :
      ExecCase i s ((s.setStage .idle).respond (statusOk :: digestBytes d.acc))

/-- Every command answers a next state, and it is one of these. -/
theorem exec_case (i : Instr) (s : State) : ∃ t, exec i s = .next t ∧ ExecCase i s t := by
  by_cases hf : s.phase = .fault
  · refine ⟨s, ?_, .discarded hf⟩
    cases i <;> simp [exec, execInit, execBlock, execFinal, execExtract, unlessFault_fault hf]
  cases i with
  | init => exact ⟨_, by simp [exec, execInit, unlessFault_of_ne hf], .init rfl hf⟩
  | block p =>
    by_cases hp : p.length = 64
    · by_cases ha : s.phase = .active
      · obtain ⟨d, hd⟩ := (phase_eq_active s).1 ha
        by_cases hr : d.bitlen.toNat + 512 ≤ 2 ^ 64 - 1
        · refine ⟨_, ?_, .block p d rfl hp hd hr⟩
          simp only [exec, execBlock, unlessFault_of_ne hf, requireLength_eq, hp, beq_self_eq_true, if_true,
            requireActive_active hd, requireRoom_eq, Config.blockBits, hr, absorbBlock_ok hp]
        · refine ⟨_, ?_, .faulted .overflow hf⟩
          simp only [exec, execBlock, unlessFault_of_ne hf, requireLength_eq, hp, beq_self_eq_true, if_true,
            requireActive_active hd, requireRoom_eq, Config.blockBits, hr, if_false]
      · refine ⟨_, ?_, .faulted .phase hf⟩
        simp only [exec, execBlock, unlessFault_of_ne hf, requireLength_eq, hp, beq_self_eq_true, if_true,
          requireActive_of_ne ha]
    · exact ⟨_, by simp [exec, execBlock, unlessFault_of_ne hf, requireLength_eq, hp], .faulted .length hf⟩
  | final p =>
    by_cases hp : p.length ≤ 63
    · by_cases ha : s.phase = .active
      · obtain ⟨d, hd⟩ := (phase_eq_active s).1 ha
        by_cases hr : d.bitlen.toNat + 8 * p.length ≤ 2 ^ 64 - 1
        · refine ⟨_, ?_, .final p d rfl hp hd hr⟩
          simp only [exec, execFinal, unlessFault_of_ne hf, requireLength_eq, Config.finalMax, hp, decide_true, if_true,
            requireActive_active hd, requireRoom_eq, hr, finishDigest_ok hp]
        · refine ⟨_, ?_, .faulted .overflow hf⟩
          simp only [exec, execFinal, unlessFault_of_ne hf, requireLength_eq, Config.finalMax, hp, decide_true, if_true,
            requireActive_active hd, requireRoom_eq, hr, if_false]
      · refine ⟨_, ?_, .faulted .phase hf⟩
        simp only [exec, execFinal, unlessFault_of_ne hf, requireLength_eq, Config.finalMax, hp, decide_true, if_true,
          requireActive_of_ne ha]
    · exact ⟨_, by simp [exec, execFinal, unlessFault_of_ne hf, requireLength_eq, hp, Config.finalMax],
        .faulted .length hf⟩
  | extract =>
    by_cases ha : s.phase = .frozen
    · obtain ⟨d, hd⟩ := (phase_eq_frozen s).1 ha
      exact ⟨_, by simp [exec, execExtract, unlessFault_of_ne hf, requireFrozen_frozen hd], .extract d rfl hd⟩
    · exact ⟨_, by simp [exec, execExtract, unlessFault_of_ne hf, requireFrozen_of_ne ha], .faulted .phase hf⟩

/-- What a command that answers `t` has done. -/
theorem exec_inv {i : Instr} {s t : State} (h : exec i s = .next t) : ExecCase i s t := by
  obtain ⟨u, hu, hc⟩ := exec_case i s
  rw [h] at hu
  cases hu
  exact hc

end Sys2Proof.Machine
end

