-- ==== Sys2Proof/Laws/PerInstr.lean ====
section
/-! SUPPORT. Facts about every command as syntax, one lemma for each constructor. -/

namespace Sys2Proof.Laws.PacketLength

open Sys2Proof

/-- A well-formed command's packet is `2 + LEN` bytes long, at most 66 (30_encoding.md R40, R42). -/
def Statement (i : Instr) : Prop :=
  i.wellFormed = true → (encode i).length = 2 + i.len.toNat ∧ (encode i).length ≤ 66

/-- The packet length of any command whose `LEN` holds its payload length. -/
theorem of_wellFormed (i : Instr) : Statement i := fun h => by
  have h1 := len_toNat h
  have h2 := payload_length_le h
  simp only [encode, List.length_cons]
  omega

theorem init : Statement .init := of_wellFormed _
theorem block (p : List Byte) : Statement (.block p) := of_wellFormed _
theorem final (p : List Byte) : Statement (.final p) := of_wellFormed _
theorem extract : Statement .extract := of_wellFormed _

end Sys2Proof.Laws.PacketLength
end

