-- ==== Sys2Proof/Laws/Step.lean ====
section
/-! SUPPORT. What one turn of the decode loop can do, said once. -/

namespace Sys2Proof.Machine

/-- Outside `FAULT` the fetch follows the decoder. -/
theorem fetch_of_ne {s : State} (h : s.phase ≠ .fault) : fetch s = fetchPacket s.cmd := by
  unfold fetch
  cases hs : s.stage <;> simp_all [State.phase]

/-- In `FAULT` the pending bytes are discarded. -/
theorem fetch_fault {s : State} (h : s.phase = .fault) : fetch s = .discard := by
  unfold fetch
  rw [(phase_eq_fault s).1 h]

/-- What one step can do. -/
inductive StepCase (s : State) : State → Prop where
  | discard (h : s.phase = .fault) : StepCase s (s.setCmd [])
  | wait (h : s.phase ≠ .fault) (d : decode s.cmd = .incomplete) : StepCase s s
  | reserved (rest : List Byte) (h : s.phase ≠ .fault) (d : decode s.cmd = .reservedOp rest) :
      StepCase s (takeFault .opcode (s.setCmd rest))
  | illegal (rest : List Byte) (h : s.phase ≠ .fault) (d : decode s.cmd = .illegalLen rest) :
      StepCase s (takeFault .length (s.setCmd rest))
  | run (i : Instr) (rest : List Byte) (t : State) (h : s.phase ≠ .fault) (d : decode s.cmd = .packet i rest)
      (c : ExecCase i (s.setCmd rest) t) : StepCase s t

/-- What a step that answers `t` has done. -/
theorem step_inv {s t : State} (h : step s = .next t) : StepCase s t := by
  unfold step at h
  by_cases hf : s.phase = .fault
  · rw [fetch_fault hf] at h
    cases h
    exact .discard hf
  · rw [fetch_of_ne hf, fetchPacket] at h
    cases hd : decode s.cmd <;> rw [hd] at h <;> simp only [raise] at h
    · exact .run _ _ t hf hd (exec_inv h)
    · cases h; exact .wait hf hd
    · cases h; exact .reserved _ hf hd
    · cases h; exact .illegal _ hf hd

end Sys2Proof.Machine
end

