-- ==== Sys2Proof/Tests/Slice0.lean ====
section
/-! SUPPORT. The model's own tests. Expected values come from spec/: the encoding tables of 30_encoding.md and the vectors of
95_test_vectors.md, by section. The second half holds one witness for every obligation with hypotheses. -/

namespace Sys2Proof.Tests

open Sys2Proof.Machine Sys2Proof.Safety

/-! ### Helpers -/

/-- A state with empty streams and an empty buffer. -/
def stateIn (x : Stage) : State := { stage := x, errcode := 0x00, buf := [], cmd := [], resp := [] }

/-- A state in `FAULT` with a code and pending bytes. -/
def stateInFault (code : Byte) (bytes : List Byte) : State :=
  { stage := .fault, errcode := code, buf := [], cmd := bytes, resp := [] }

/-- A state with pending bytes. -/
def stateWith (x : Stage) (bytes : List Byte) : State := (stateIn x).setCmd bytes

/-- The next state, where an outcome is one. -/
def nextOf : Out → Option State
  | .next t => some t
  | .fault _ => none
  | .refused _ => none

theorem eq_next_of_nextOf {o : Out} {t : State} (h : nextOf o = some t) : o = .next t := by
  cases o <;> simp_all [nextOf]

/-- `n` bytes `"a"`. -/
def as (n : Nat) : List Byte := List.replicate n 0x61

/-- The accumulator of the empty message (section 2). -/
def emptyAccum : Accum := ⟨0xDA39A3EE, 0x5E6B4B0D, 0x3255BFEF, 0x95601890, 0xAFD80709⟩

/-- Right after `INIT`. -/
def fresh : Stage := .active ⟨initialAccum, 0⟩

/-- A frozen digest, that of the empty message. -/
def frozenEmpty : Stage := .frozen ⟨emptyAccum, 0⟩

/-! ### WellFormed refuses each ill-formed command -/

theorem test_wellFormed_block_short : (Instr.block (as 63)).wellFormed = false := by decide
theorem test_wellFormed_block_long : (Instr.block (as 65)).wellFormed = false := by decide
theorem test_wellFormed_final_long : (Instr.final (as 64)).wellFormed = false := by decide
theorem test_wellFormed_accepts :
    (Instr.block (as 64)).wellFormed = true ∧ (Instr.final (as 63)).wellFormed = true ∧
    (Instr.final []).wellFormed = true := by decide

/-! ### Decoding: words written out from 30_encoding.md R41, R42 (`OP` in bits 15:8, `LEN` in bits 7:0) and section 6.1 -/

theorem test_decode_init : decode [0b00000001, 0b00000000, 0x04] = .packet .init [0x04] := by decide
theorem test_decode_block :
    decode (0b00000010 :: 0b01000000 :: as 64) = .packet (.block (as 64)) [] := by decide
theorem test_decode_final : decode [0b00000011, 0b00000010, 0x80, 0x81] = .packet (.final [0x80, 0x81]) [] := by decide
theorem test_decode_final_longest :
    decode (0b00000011 :: 0b00111111 :: as 63) = .packet (.final (as 63)) [] := by decide
theorem test_decode_extract : decode [0b00000100, 0b00000000] = .packet .extract [] := by decide

/-- Section 6.1: `0x0340`, `0x03FF`, `0x0200`, `0x023F`, `0x0241`, `0x0101`, `0x0401`. -/
theorem test_classify_illegalLen :
    ([0x0340, 0x03FF, 0x0200, 0x023F, 0x0241, 0x0101, 0x0401].all fun cw => classify cw == .illegalLen) = true := by decide

/-- Section 6.1: `0x0000`, `0x0500`, `0xFF00`, `0x0940`, `0x0001`. -/
theorem test_classify_reservedOp :
    ([0x0000, 0x0500, 0xFF00, 0x0940, 0x0001].all fun cw => classify cw == .reservedOp) = true := by decide

/-- The table's words, numbered with the command word in bits 15 to 0; 16-bit words travel most significant byte first. -/
theorem test_decodeTableWord :
    decodeTableWord 16 0x0100 = some .init ∧ decodeTableWord 16 0x0400 = some .extract ∧
    decodeTableWord 16 0x0300 = some (.final []) ∧ decodeTableWord 32 0x61620302 = some (.final [0x61, 0x62]) ∧
    decodeTableWord 16 0x0240 = some (.block (List.replicate 64 0x00)) ∧ decodeTableWord 16 0x0340 = none := by decide

theorem test_withFetchWord_init :
    nextOf (step (State.reset.withFetchWord 16 0x0100)) =
      some { stage := fresh, errcode := 0x00, buf := [], cmd := [], resp := [0x00] } := by decide

/-! ### The block buffer (Machine/Ops.lean) -/

theorem test_memory_canonical :
    writeBytes (writeByte [] 3 0xAA) 1 [0x01, 0x02, 0x03] = [(1, 0x01), (2, 0x02), (3, 0x03)] ∧
    readByte [(1, 0x01), (3, 0x03)] 2 = none ∧ Memory.wf [(1, 0x01), (3, 0x03)] := by decide

/-- Released bytes hold nothing, and the others stay. -/
theorem test_memory_release :
    releaseBytes [(1, 0x01), (2, 0x02), (63, 0x03)] 1 2 = [(63, 0x03)] ∧ releaseBlock [(0, 0x01), (63, 0x03)] = [] := by decide

theorem test_memory_range :
    (match memWrite [] 1 (as 64) with | .error f => f == .bufferRange | .ok _ => false) = true ∧
    (match memRead [] 0 1 with | .error f => f == .bufferUnwritten | .ok _ => false) = true := by decide

/-! ### The datapath: sections 3.1 to 3.4 -/

theorem test_rotl :
    rotl 0x12345678 1 = 0x2468ACF0 ∧ rotl 0x12345678 5 = 0x468ACF02 ∧ rotl 0x12345678 30 = 0x048D159E ∧
    rotl 0x80000000 1 = 0x00000001 := by decide

theorem test_add_wraps : (0x7FFFFFFF : Word) + 1 = 0x80000000 ∧ (0xFFFFFFFF : Word) + 1 = 0 := by decide

theorem test_roundF :
    ([0, 19].all fun i => roundF i 0xF0F0F0F0 0xCCCCCCCC 0xAAAAAAAA == 0xCACACACA) ∧
    ([20, 39, 60, 79].all fun i => roundF i 0xF0F0F0F0 0xCCCCCCCC 0xAAAAAAAA == 0x96969696) ∧
    ([40, 59].all fun i => roundF i 0xF0F0F0F0 0xCCCCCCCC 0xAAAAAAAA == 0xE8E8E8E8) := by decide

theorem test_roundK :
    roundK 19 = 0x5A827999 ∧ roundK 20 = 0x6ED9EBA1 ∧ roundK 39 = 0x6ED9EBA1 ∧ roundK 40 = 0x8F1BBCDC ∧
    roundK 59 = 0x8F1BBCDC ∧ roundK 60 = 0xCA62C1D6 := by decide

/-- Section 2: round 0 of the empty message. -/
theorem test_runRound :
    runRound 0 (seed initialAccum) 0x80000000 = ⟨0x1FB498B3, 0x67452301, 0x7BF36AE2, 0x98BADCFE, 0x10325476⟩ := by decide

/-- Section 3.5: words of the schedule of `"abc"`. -/
theorem test_schedule_abc :
    let w := schedule ([0x61, 0x62, 0x63, 0x80] ++ List.replicate 59 0x00 ++ [0x18])
    w.getD 0 0 = 0x61626380 ∧ w.getD 15 0 = 0x18 ∧ w.getD 16 0 = 0xC2C4C700 ∧ w.getD 79 0 = 0x822E0879 := by
  decide +kernel

/-- Section 3.4: extreme inputs that no `INIT` reaches. -/
theorem test_compress_ones :
    compress ⟨0xFFFFFFFF, 0xFFFFFFFF, 0xFFFFFFFF, 0xFFFFFFFF, 0xFFFFFFFF⟩ (List.replicate 64 0xFF) =
      ⟨0x3F48159B, 0x2DCE51FA, 0x8A1E930A, 0x02083B68, 0xEF70D6E8⟩ := by decide +kernel

theorem test_compress_zero :
    compress ⟨0, 0, 0, 0, 0⟩ (List.replicate 64 0x00) =
      ⟨0x9E1547ED, 0x57EC91C2, 0x30FA8BC8, 0xC7785A54, 0xA7EFA5E3⟩ := by decide +kernel

/-- Section 4.4: the tail of `N = 56`, and the length field of `N = 127`. -/
theorem test_paddedTail :
    paddedTail (as 56) 0x1C0 =
      as 56 ++ [0x80] ++ List.replicate 63 0x00 ++ [0x00, 0x00, 0x00, 0x00, 0x00, 0x00, 0x01, 0xC0] ∧
    (paddedTail (as 63) 0x3F8).drop 126 = [0x03, 0xF8] ∧ (paddedTail (as 55) 0x1B8).length = 64 := by decide

/-! ### One step of each command: section 4 -/

/-- Section 4.1: `INIT` in `FROZEN`: the unread digest is lost. -/
theorem test_init_frozen :
    nextOf (step (stateWith frozenEmpty [0x01, 0x00])) =
      some { stage := fresh, errcode := 0x00, buf := [], cmd := [], resp := [0x00] } := by decide

/-- Section 4.1: `.cmd 0x0101 x"aa"`. -/
theorem test_init_length :
    nextOf (step (stateWith .idle [0x01, 0x01, 0xAA])) =
      some { stage := .fault, errcode := 0x02, buf := [], cmd := [0xAA], resp := [0x02] } := by decide

/-- Section 4.2: `BLOCK "a"*64` after `INIT`. -/
theorem test_block_a :
    ((nextOf (step (stateWith fresh (0x02 :: 0x40 :: as 64)))).map fun t => (t.stage, t.buf, t.resp)) =
      some (.active ⟨⟨0xDA4968EB, 0x2E377C1F, 0x884E8F52, 0x83524BEB, 0xE74EBDBD⟩, 512⟩, [], [0x00]) := by decide +kernel

/-- Section 4.2: the last `BLOCK` that fits, and the first that does not. -/
theorem test_block_overflow :
    ((nextOf (exec (.block (as 64)) (stateIn (.active ⟨initialAccum, 0xFFFFFFFFFFFFFC00⟩)))).map fun t => t.bitlen) =
      some (some 0xFFFFFFFFFFFFFE00) ∧
    ((nextOf (exec (.block (as 64)) (stateIn (.active ⟨initialAccum, 0xFFFFFFFFFFFFFE00⟩)))).map fun t =>
      (t.phase, t.errcode, t.resp)) = some (.fault, 0x04, [0x04]) := by decide +kernel

/-- Section 4.4, `N = 56`: the shortest payload with two blocks. -/
theorem test_final_two_blocks :
    ((nextOf (step (stateWith fresh (0x03 :: 0x38 :: as 56)))).map fun t => (t.stage, t.resp)) =
      some (.frozen ⟨⟨0xC2DB330F, 0x6083854C, 0x99D4B5BF, 0xB6E8F29F, 0x201BE699⟩, 0x1C0⟩, [0x00]) := by decide +kernel

/-- Section 4.2, overflow corners: `FINAL "a"*63` up to the largest length, `FINAL "a"` beyond it. -/
theorem test_final_overflow :
    ((nextOf (exec (.final (as 63)) (stateIn (.active ⟨initialAccum, 0xFFFFFFFFFFFFFE00⟩)))).map fun t => t.bitlen) =
      some (some 0xFFFFFFFFFFFFFFF8) ∧
    ((nextOf (exec (.final (as 1)) (stateIn (.active ⟨initialAccum, 0xFFFFFFFFFFFFFFF8⟩)))).map fun t =>
      (t.phase, t.errcode, t.resp)) = some (.fault, 0x04, [0x04]) := by decide +kernel

/-- Section 4.5, second row: the byte order. -/
theorem test_extract_bytes :
    nextOf (step (stateWith (.frozen ⟨⟨0x00000001, 0x00000002, 0x80000000, 0xFFFFFFFF, 0x01020304⟩, 8⟩) [0x04, 0x00])) =
      some { stage := .idle, errcode := 0x00, buf := [], cmd := [], resp :=
        [0x00, 0x00, 0x00, 0x00, 0x01, 0x00, 0x00, 0x00, 0x02, 0x80, 0x00, 0x00, 0x00, 0xFF, 0xFF, 0xFF, 0xFF,
          0x01, 0x02, 0x03, 0x04] } := by decide

/-- Section 4.5: `EXTRACT` in `ACTIVE`. -/
theorem test_extract_active :
    nextOf (step (stateWith fresh [0x04, 0x00])) =
      some { stage := .fault, errcode := 0x03, buf := [], cmd := [], resp := [0x03] } := by decide

/-! ### Faults and waiting: sections 6.2 and 6.3 -/

/-- `.cmd 0x0940`: `E_OPCODE`; `.cmd 0x020A` in `IDLE`: `E_LENGTH` before `E_PHASE`; in `FAULT` everything is discarded. -/
theorem test_faults :
    nextOf (step (stateWith .idle [0x09, 0x40])) = some { stateInFault 0x01 [] with resp := [0x01] } ∧
    nextOf (step (stateWith .idle (0x02 :: 0x0A :: as 10))) = some { stateInFault 0x02 (as 10) with resp := [0x02] } ∧
    nextOf (step (stateInFault 0x01 [0x01, 0x00])) = some (stateInFault 0x01 []) := by decide

/-- Ten of 64 payload bytes of `BLOCK` after reset: the engine waits, still in `IDLE`. -/
theorem test_waits : nextOf (step (stateWith .idle (0x02 :: 0x40 :: as 10))) = some (stateWith .idle (0x02 :: 0x40 :: as 10)) := by
  decide

/-! ### The driver and the text: section 5 and 30_encoding.md R51 -/

/-- Section 5.2: two blocks of 64, then 2 bytes, from the reads 64, 64, 2; a limit of 70; an `IOError` after 74 bytes. -/
theorem test_digestPlan :
    (digestPlan ⟨as 130, [.count 64, .count 64, .count 2, .count 1]⟩ none).cmds =
      [.init, .block (as 64), .block (as 64), .final (as 2), .extract] ∧
    (digestPlan ⟨as 130, [.count 64, .count 6]⟩ (some 70)).cmds = [.init, .block (as 64), .final (as 6), .extract] ∧
    digestPlan ⟨as 130, [.count 64, .count 10, .ioError]⟩ none = ⟨[.init, .block (as 64)], true⟩ ∧
    digestPlan ⟨as 130, [.ioError]⟩ (some 0) = ⟨[.init, .final [], .extract], false⟩ := by decide +kernel

/-- Section 5.2: 130 bytes one at a time. -/
theorem test_digestPlan_one_at_a_time :
    (digestPlan ⟨as 130, List.replicate 130 (.count 1)⟩ none).cmds =
      [.init, .block (as 64), .block (as 64), .final (as 2), .extract] := by decide +kernel

/-- R94, R100, R101: a failed source gives `NoDigest` only where every command was answered `OK`. -/
theorem test_digestResult :
    digestResult true [[0x00], [0x00]] = .noDigest ∧ digestResult true [[0x00], [0x04], []] = .noResponse ∧
    digestResult true [[]] = .noResponse ∧ digestResult false [[0x00], [0x00], 0x00 :: digestBytes emptyAccum] =
      .digest (digestBytes emptyAccum) := by decide

/-- Section 4.4, `N = 65`: the closed form. -/
theorem test_digestSpec_65 : hexForm (digestSpec (as 65)) = "11655326c708d70319be2610e8a57d9a5b959d3b".toList := by
  decide +kernel

/-- R51: repetition, a comment, a raw packet; an oversized `FINAL` is refused. -/
theorem test_assembler :
    (match assembleText "INIT ; start\nFINAL \"a\"*3\n.cmd 0x0101 x\"aA\"\n".toList with
      | .ok bs => bs == [0x01, 0x00, 0x03, 0x03, 0x61, 0x61, 0x61, 0x01, 0x01, 0xAA] | .error _ => false) = true ∧
    (match assembleLine "FINAL \"a\"*64".toList with | .ok _ => false | .error e => e == .finalOver63) = true := by
  decide +kernel

/-! ### Witnesses: for each obligation with hypotheses, concrete values that meet them, clause by clause -/

/-- An engine in `FAULT` with two bytes pending. -/
def faulted : State := stateInFault 0x03 [0x01, 0x00]

/-- The reset state, right after `INIT`, and frozen: the three phases but `FAULT`. -/
theorem phases_not_fault :
    State.reset.phase ≠ .fault ∧ (stateIn fresh).phase ≠ .fault ∧ (stateIn frozenEmpty).phase ≠ .fault ∧
    faulted.phase = .fault := by decide

theorem witness_DecodeOfEncode :
    Instr.wellFormed .init = true ∧ (Instr.block (as 64)).wellFormed = true ∧ (Instr.final (as 63)).wellFormed = true ∧
    (Instr.final []).wellFormed = true ∧ Instr.wellFormed .extract = true := by decide

theorem witness_EncodeOfDecode : decode (0x03 :: 0x3F :: as 64) = .packet (.final (as 63)) [0x61] := by decide

theorem witness_PacketFormat : (as 64).length = 64 ∧ (as 63).length ≤ 63 ∧ (as 0).length ≤ 63 := by decide

theorem witness_MaskTableSelectsLegalWords :
    ∃ r ∈ opcodeTable, r.isLegal 0x033F = true ∧ classify 0x033F = .legal r.op ∧ classify 0x0340 ≠ .legal r.op :=
  ⟨⟨.final, 0x0300, 0xFFC0, 0x0300, 0xFF00⟩, by decide⟩

/-- A reserved word, an illegal length, and a legal word with exactly enough and with one byte too few behind it. -/
theorem witness_DecodeFollowsClass :
    ((0x0500 : CmdWord).toNat = (0x05 : Byte).toNat * 256 + (0x00 : Byte).toNat ∧ classify 0x0500 = .reservedOp) ∧
    ((0x0340 : CmdWord).toNat = (0x03 : Byte).toNat * 256 + (0x40 : Byte).toNat ∧ classify 0x0340 = .illegalLen) ∧
    ((0x033F : CmdWord).toNat = (0x03 : Byte).toNat * 256 + (0x3F : Byte).toNat ∧ classify 0x033F = .legal .final ∧
      (0x3F : Byte).toNat ≤ (as 63).length ∧ (as 62).length < (0x3F : Byte).toNat) ∧
    ([0x01] : List Byte).length < 2 := by decide

theorem witness_RotateLeftRule : (1 ≤ 1 ∧ 1 ≤ 31) ∧ (1 ≤ 31 ∧ 31 ≤ 31) := by decide

/-- The ends of the four ranges of rounds; no index falls under two rows with different functions. -/
theorem witness_RoundFunctionRule :
    (0 < 80 ∧ 19 ≤ 19) ∧ (20 ≤ 20 ∧ 39 ≤ 39) ∧ (40 ≤ 40 ∧ 59 ≤ 59) ∧ (60 ≤ 60 ∧ 79 < 80) ∧
    roundF 19 1 2 4 ≠ roundF 20 1 2 4 ∧ roundF 39 1 3 5 ≠ roundF 40 1 3 5 ∧ roundF 59 1 3 5 ≠ roundF 60 1 3 5 := by decide

theorem witness_RoundConstantRule : 0 < 80 ∧ 79 < 80 ∧ 20 ≤ 39 ∧ 40 ≤ 59 := by decide

theorem witness_ScheduleRule :
    (as 64).length = 64 ∧ ([0x61, 0x62, 0x63, 0x80] ++ List.replicate 60 (0x00 : Byte)).length = 64 ∧
    ([0x61, 0x62, 0x63, 0x80] ++ List.replicate 60 (0x00 : Byte)).take 4 = [0x61, 0x62, 0x63, 0x80] := by decide

/-- The working registers of the all-zero block after `i` rounds; its schedule words are all zero (R59). -/
def zeroBlockRegs (i : Nat) : Working :=
  (List.range i).foldl (fun r k => runRound k r 0) (seed initialAccum)

theorem zeroBlockRegs_succ (i : Nat) : zeroBlockRegs (i + 1) = runRound i (zeroBlockRegs i) 0 := by
  simp [zeroBlockRegs, List.range_succ]

/-- The all-zero block from the initial constants: zero schedule words and these registers follow the rules. -/
theorem witness_CompressFollowsRule :
    (List.replicate 64 (0x00 : Byte)).length = 64 ∧
    (∀ j, j < 16 → (0 : Word).toNat =
      ((List.replicate 64 (0x00 : Byte)).getD (4 * j) 0).toNat * 2 ^ 24 +
      ((List.replicate 64 (0x00 : Byte)).getD (4 * j + 1) 0).toNat * 2 ^ 16 +
      ((List.replicate 64 (0x00 : Byte)).getD (4 * j + 2) 0).toNat * 2 ^ 8 +
      ((List.replicate 64 (0x00 : Byte)).getD (4 * j + 3) 0).toNat) ∧
    (0 : Word) = (0 ^^^ 0 ^^^ 0 ^^^ 0 : Word).rotateLeft 1 ∧
    zeroBlockRegs 0 = seed initialAccum ∧
    (∀ i, i < 80 →
      (zeroBlockRegs (i + 1)).a = (zeroBlockRegs i).a.rotateLeft 5 +
        roundF i (zeroBlockRegs i).b (zeroBlockRegs i).c (zeroBlockRegs i).d + (zeroBlockRegs i).e + roundK i + 0 ∧
      (zeroBlockRegs (i + 1)).b = (zeroBlockRegs i).a ∧
      (zeroBlockRegs (i + 1)).c = (zeroBlockRegs i).b.rotateLeft 30 ∧
      (zeroBlockRegs (i + 1)).d = (zeroBlockRegs i).c ∧ (zeroBlockRegs (i + 1)).e = (zeroBlockRegs i).d) := by
  refine ⟨by decide, by decide, by decide, rfl, fun i _ => ?_⟩
  rw [zeroBlockRegs_succ]
  exact ⟨rfl, rfl, rfl, rfl, rfl⟩

/-- Both sides of the boundary between one block and two, and the ends. -/
theorem witness_PaddedTailRule :
    (as 0).length ≤ 55 ∧ (as 55).length ≤ 55 ∧ 56 ≤ (as 56).length ∧ (as 63).length ≤ 63 := by decide

theorem witness_PaddedTailLayout : (as 55).length ≤ 55 ∧ 56 ≤ (as 56).length ∧ (as 63).length ≤ 63 := by decide

theorem witness_BufferReadAfterWrite : 63 + [(0x18 : Byte)].length ≤ 64 ∧ 64 < 63 + [(0x01 : Byte), 0x18].length := by decide

theorem witness_InitRule :
    State.reset.phase ≠ .fault ∧ (stateIn frozenEmpty).phase ≠ .fault ∧ (0x01 : Byte) ≠ 0x00 ∧
    (stateWith fresh [0x01, 0x01, 0xAA]).cmd = 0x01 :: 0x01 :: [0xAA] := by decide

theorem witness_InitForgets :
    State.reset.phase ≠ .fault ∧ (stateIn frozenEmpty).phase ≠ .fault ∧ faulted.phase = .fault := by decide

/-- The largest count with room for one block, and the first without. -/
theorem witness_BlockRule :
    (stateIn (.active ⟨initialAccum, 0xFFFFFFFFFFFFFC00⟩)).stage = .active ⟨initialAccum, 0xFFFFFFFFFFFFFC00⟩ ∧
    (as 64).length = 64 ∧ (0xFFFFFFFFFFFFFC00 : Count).toNat + 512 ≤ 2 ^ 64 - 1 ∧
    State.reset.phase ≠ .fault ∧ (as 65).length ≠ 64 ∧ State.reset.phase = .idle ∧ (stateIn frozenEmpty).phase = .frozen ∧
    (0xFFFFFFFFFFFFFE00 : Count).toNat + 512 > 2 ^ 64 - 1 := by decide

/-- `FINAL` with 63 bytes up to the largest length, and with one byte beyond it. -/
theorem witness_FinalRule :
    (stateIn (.active ⟨initialAccum, 0xFFFFFFFFFFFFFE00⟩)).stage = .active ⟨initialAccum, 0xFFFFFFFFFFFFFE00⟩ ∧
    (as 63).length ≤ 63 ∧ (0xFFFFFFFFFFFFFE00 : Count).toNat + 8 * (as 63).length ≤ 2 ^ 64 - 1 ∧
    State.reset.phase ≠ .fault ∧ 64 ≤ (as 64).length ∧ State.reset.phase = .idle ∧ (stateIn frozenEmpty).phase = .frozen ∧
    (0xFFFFFFFFFFFFFFF8 : Count).toNat + 8 * (as 1).length > 2 ^ 64 - 1 := by decide

theorem witness_ExtractRule :
    (stateIn frozenEmpty).stage = .frozen ⟨emptyAccum, 0⟩ ∧ (stateWith frozenEmpty [0x04, 0x01]).phase ≠ .fault ∧
    (0x01 : Byte) ≠ 0x00 ∧ (stateWith frozenEmpty [0x04, 0x01]).cmd = 0x04 :: 0x01 :: [] ∧ State.reset.phase = .idle ∧
    (stateIn fresh).phase = .active := by decide

theorem witness_InitExtractFrame :
    (∃ t, exec .init State.reset = .next t ∧ State.reset.phase ≠ .fault ∧ t.phase ≠ .fault) ∧
    (∃ t, exec .extract (stateIn frozenEmpty) = .next t ∧ (stateIn frozenEmpty).phase ≠ .fault ∧ t.phase ≠ .fault) :=
  ⟨⟨_, rfl, by decide, by decide⟩, ⟨_, rfl, by decide, by decide⟩⟩

/-- Executing a command that is legal in the state gives a state in the phase the rules name. -/
theorem runs_of {i : Instr} {s : State} (p : Phase)
    (h : (match exec i s with | .next t => t.phase == p | .fault _ => false | .refused _ => false) = true) :
    ∃ t, exec i s = .next t ∧ t.phase = p := by
  cases he : exec i s with
  | next t => rw [he] at h; exact ⟨t, rfl, by simpa using h⟩
  | fault f => rw [he] at h; cases h
  | refused f => rw [he] at h; cases h

theorem final_runs : ∃ t, exec (.final (as 56)) (stateIn fresh) = .next t ∧ t.phase = .frozen :=
  runs_of .frozen (by decide +kernel)

theorem witness_BlockFinalFrame :
    (stateIn fresh).phase ≠ .fault ∧
    (∃ t, exec (.block (as 64)) (stateIn fresh) = .next t ∧ t.phase ≠ .fault) ∧
    (∃ t, exec (.final (as 56)) (stateIn fresh) = .next t ∧ t.phase ≠ .fault) := by
  obtain ⟨t, h, ht⟩ := runs_of (i := .block (as 64)) (s := stateIn fresh) .active (by decide +kernel)
  obtain ⟨u, h', hu⟩ := final_runs
  exact ⟨by decide, ⟨t, h, by simp [ht]⟩, ⟨u, h', by simp [hu]⟩⟩

theorem witness_FrozenResult :
    (∃ t, (stateWith frozenEmpty [0x04, 0x00]).stage = .frozen ⟨emptyAccum, 0⟩ ∧
      step (stateWith frozenEmpty [0x04, 0x00]) = .next t) ∧
    (∃ t d, (stateIn fresh).phase = .active ∧ exec (.final (as 56)) (stateIn fresh) = .next t ∧ t.stage = .frozen d) := by
  obtain ⟨u, h, hu⟩ := final_runs
  obtain ⟨d, hd⟩ := (phase_eq_frozen u).1 hu
  exact ⟨⟨_, rfl, rfl⟩, ⟨u, d, by decide, h, hd⟩⟩

/-- A listed pair, an unlisted one, a count at the last value with room, and `FAULT`. -/
theorem witness_PhaseTableRule :
    (Instr.block (as 64)).wellFormed = true ∧ (stateIn fresh).phase ≠ .fault ∧
    (∀ d, (stateIn (.active ⟨initialAccum, 0xFFFFFFFFFFFFFC00⟩)).stage = .active d →
      d.bitlen.toNat + 512 ≤ 2 ^ 64 - 1) ∧
    phaseTable (stateIn fresh).phase (Instr.block (as 64)).op = some .active ∧
    phaseTable State.reset.phase (Instr.block (as 64)).op = none ∧ faulted.phase = .fault :=
  ⟨by decide, by decide, fun d h => by cases h; decide, by decide, by decide, by decide⟩

/-- One state for each clause: in `FAULT`; incomplete; a fault; `INIT` accepted; `EXTRACT` accepted. -/
theorem witness_ResponseRule :
    (∃ t, step faulted = .next t ∧ faulted.phase = .fault) ∧
    (∃ t, step (stateWith .idle [0x01]) = .next t ∧ (stateWith .idle [0x01]).phase ≠ .fault ∧
      decode (stateWith .idle [0x01]).cmd = .incomplete) ∧
    (∃ t, step (stateWith .idle [0x05, 0x00]) = .next t ∧ (stateWith .idle [0x05, 0x00]).phase ≠ .fault ∧
      decode (stateWith .idle [0x05, 0x00]).cmd ≠ .incomplete ∧ t.phase = .fault) ∧
    (∃ t, step (stateWith .idle [0x01, 0x00]) = .next t ∧ (stateWith .idle [0x01, 0x00]).phase ≠ .fault ∧
      t.phase ≠ .fault ∧ decode (stateWith .idle [0x01, 0x00]).cmd = .packet .init [] ∧ Instr.init ≠ .extract) ∧
    (∃ t, step (stateWith frozenEmpty [0x04, 0x00]) = .next t ∧ (stateWith frozenEmpty [0x04, 0x00]).phase ≠ .fault ∧
      t.phase ≠ .fault ∧ decode (stateWith frozenEmpty [0x04, 0x00]).cmd = .packet .extract []) :=
  ⟨⟨_, rfl, by decide⟩, ⟨_, rfl, by decide, by decide⟩, ⟨_, rfl, by decide, by decide, by decide⟩,
    ⟨_, rfl, by decide, by decide, by decide, by decide⟩, ⟨_, rfl, by decide, by decide, by decide⟩⟩

theorem witness_ReservedOpcodeFaults :
    ([0x00, 0x05, 0xFF].all fun op : Byte => op != 0x01 && op != 0x02 && op != 0x03 && op != 0x04) = true ∧
    (stateWith frozenEmpty [0x05, 0x00]).phase ≠ .fault ∧
    (stateWith frozenEmpty [0x05, 0x00]).cmd = 0x05 :: 0x00 :: [] := by decide

theorem witness_IllegalLengthFaults :
    (stateWith fresh [0x03, 0x40]).phase ≠ .fault ∧ (stateWith fresh [0x03, 0x40]).cmd = 0x03 :: 0x40 :: [] ∧
    64 ≤ (0x40 : Byte).toNat ∧ (0x01 : Byte).toNat ≠ 0 ∧ (0x3F : Byte).toNat ≠ 64 ∧ (0x41 : Byte).toNat ≠ 64 := by decide

theorem witness_OutOfPhaseFaults :
    (Instr.block (as 64)).wellFormed = true ∧ (Instr.final (as 63)).wellFormed = true ∧ State.reset.phase = .idle ∧
    (stateIn frozenEmpty).phase = .frozen ∧ (stateIn fresh).phase = .active ∧ State.reset.phase ≠ .fault := by decide

/-- Counts at both sides of each bound, a multiple of 512, and an accepted command that is not `INIT`. -/
theorem witness_OverflowRule :
    (stateIn (.active ⟨initialAccum, 0xFFFFFFFFFFFFFE00⟩)).stage = .active ⟨initialAccum, 0xFFFFFFFFFFFFFE00⟩ ∧
    (as 64).length = 64 ∧ (as 63).length ≤ 63 ∧ (0xFFFFFFFFFFFFFE00 : Count).toNat % 512 = 0 ∧
    (0xFFFFFFFFFFFFFE00 : Count).toNat + 512 > 2 ^ 64 - 1 ∧ (0xFFFFFFFFFFFFFC00 : Count).toNat + 512 ≤ 2 ^ 64 - 1 ∧
    (0xFFFFFFFFFFFFFE00 : Count).toNat = 512 * (2 ^ 55 - 1) ∧
    (∃ t d', exec (.final (as 56)) (stateIn fresh) = .next t ∧ Instr.final (as 56) ≠ .init ∧
      t.stage.digestState = some d') := by
  obtain ⟨u, h, hu⟩ := final_runs
  obtain ⟨d, hd⟩ := (phase_eq_frozen u).1 hu
  exact ⟨rfl, by decide, by decide, by decide, by decide, by decide, by decide, ⟨u, d, h, by decide, by simp [hd, Stage.digestState]⟩⟩

/-- Packets that violate the fault's own check and every later one too. -/
theorem witness_FaultPriority :
    (stateWith .idle (0x09 :: 0x40 :: as 64)).phase ≠ .fault ∧
    (stateWith .idle (0x09 :: 0x40 :: as 64)).cmd = 0x09 :: 0x40 :: as 64 ∧ Op.ofByte 0x09 = none ∧
    Op.ofByte 0x02 = some .block ∧ Op.lenLegal .block (0x0A : Byte).toNat = false ∧
    Op.lenLegal .block (0x40 : Byte).toNat = true ∧ (0x40 : Byte).toNat ≤ (as 64).length ∧
    phaseTable (stateWith .idle (0x02 :: 0x40 :: as 64)).phase .block = none ∧
    (stateWith (.active ⟨initialAccum, 0xFFFFFFFFFFFFFE00⟩) (0x02 :: 0x40 :: as 64)).stage =
      .active ⟨initialAccum, 0xFFFFFFFFFFFFFE00⟩ ∧
    (0xFFFFFFFFFFFFFE00 : Count).toNat + (if Op.block = .block then 512 else 8 * (0x40 : Byte).toNat) > 2 ^ 64 - 1 := by
  decide

theorem witness_FaultEntryRule :
    ∃ t, (stateWith fresh [0x04, 0x00, 0x01]).phase ≠ .fault ∧ step (stateWith fresh [0x04, 0x00, 0x01]) = .next t ∧
      t.phase = .fault := ⟨_, by decide, rfl, by decide⟩

theorem witness_FaultIsQuiescent :
    faulted.phase = .fault ∧ ∀ e ∈ [HostEvent.run, .append [0x01, 0x00], .run], e = .run ∨ ∃ bytes, e = .append bytes := by
  simp [faulted, stateInFault, State.phase, Stage.phase]

theorem witness_OnlyResetLeavesFault :
    faulted.phase = .fault ∧ (∃ t, applyEvent .reset faulted = .next t) ∧ (∃ t, applyEvent .run faulted = .next t) ∧
    Instr.extract ≠ .init :=
  ⟨by decide, ⟨_, rfl⟩, ⟨_, rfl⟩, by decide⟩

theorem witness_StepRunsDecoded :
    (stateWith .idle [0x01, 0x00, 0x04]).phase ≠ .fault ∧
    decode (stateWith .idle [0x01, 0x00, 0x04]).cmd = .packet .init [0x04] ∧ Instr.wellFormed .init = true ∧
    (stateWith .idle [0x01, 0x00, 0x04]).cmd = encode .init ++ [0x04] := by decide

/-- One byte; a command word whose payload is one byte short; that engine waits; the missing byte arrives. -/
theorem witness_IncompletePacketWaits :
    (stateWith .idle [0x01]).cmd.length < 2 ∧ (stateWith fresh (0x03 :: 0x3F :: as 62)).phase ≠ .fault ∧
    (stateWith fresh (0x03 :: 0x3F :: as 62)).cmd = 0x03 :: 0x3F :: as 62 ∧ Op.ofByte 0x03 = some .final ∧
    Op.lenLegal .final (0x3F : Byte).toNat = true ∧ (as 62).length < (0x3F : Byte).toNat ∧
    Waiting (stateWith fresh (0x03 :: 0x3F :: as 62)) ∧ (stateWith fresh (0x03 :: 0x3F :: as 62)).cmd ≠ [] ∧
    (Instr.final (as 63)).wellFormed = true ∧
    (stateWith fresh (0x03 :: 0x3F :: as 62)).cmd ++ [0x61] = encode (.final (as 63)) := by
  unfold Waiting
  decide

theorem witness_PipeliningEqualsWaiting :
    ∃ t, (stateWith .idle [0x01, 0x00]).phase ≠ .fault ∧ decode (stateWith .idle [0x01, 0x00]).cmd ≠ .incomplete ∧
      step (stateWith .idle [0x01, 0x00]) = .next t := ⟨_, by decide, by decide, rfl⟩

/-- A frozen state with a listed buffer and a count that is no multiple of 512 meets the invariant. -/
def richState : State :=
  { stage := .frozen ⟨emptyAccum, 24⟩, errcode := 0x00, buf := [(0, 0x80), (63, 0x18)], cmd := [0x05, 0x00], resp := [0x00] }

theorem richState_inv : StateInv richState :=
  ⟨by decide, by decide, by decide, by show (24 : Count).toNat % 8 = 0; decide⟩

theorem witness_StepKeepsInvariant : StateInv richState ∧ ∃ t, step richState = .next t ∧ t.phase = .fault :=
  ⟨richState_inv, _, rfl, by decide⟩

/-- A `BLOCK` that fills the buffer, run from an empty one. -/
theorem witness_BufferHoldsNothing :
    (stateIn fresh).buf = [] ∧ ∃ t, step (stateWith fresh (0x02 :: 0x40 :: as 64)) = .next t ∧ t.phase = .active := by
  obtain ⟨t, h, ht⟩ := runs_of (i := .block (as 64)) (s := stateIn fresh) .active (by decide +kernel)
  exact ⟨rfl, t, h, ht⟩

theorem witness_EventsKeepInvariant :
    StateInv richState ∧ ∃ t, applyEvents [.take 1, .run, .reset, .append [0x01]] richState = .next t :=
  ⟨richState_inv, _, rfl⟩

/-- An engine already in `FAULT` that meets the invariant, and one that is not yet. -/
theorem witness_ErrcodeIsSticky :
    StateInv faulted ∧ faulted.errcode ≠ 0x00 ∧ StateInv richState ∧
    (∀ e ∈ [HostEvent.run, .append [0x01, 0x00]], e ≠ .reset) ∧
    (∃ t, applyEvents [.run, .append [0x01, 0x00]] faulted = .next t) ∧
    (∃ t, applyEvents [.run, .append [0x01, 0x00]] richState = .next t) :=
  ⟨⟨by decide, by decide, by decide, trivial⟩, by decide, richState_inv, by simp, ⟨_, rfl⟩, ⟨_, rfl⟩⟩

theorem witness_StateAfterBlocks :
    (stateIn frozenEmpty).phase ≠ .fault ∧ (stateIn frozenEmpty).cmd = [] ∧ (∀ B ∈ [as 64, as 64], B.length = 64) ∧
    512 * [as 64, as 64].length ≤ 2 ^ 64 - 1 := by decide

/-- The longest message within `MAX_MSG_BITS` is `2^61 − 1` bytes; any engine not in `FAULT` will do. -/
theorem witness_DigestIsClosedForm :
    (stateIn fresh).phase ≠ .fault ∧ (stateIn fresh).cmd = [] ∧ ∃ m : List Byte, 8 * m.length ≤ 2 ^ 64 - 1 ∧
      m.length = 2 ^ 61 - 1 :=
  ⟨by decide, rfl, List.replicate (2 ^ 61 - 1) 0x00, by rw [List.length_replicate]; norm_num, List.length_replicate⟩

/-- Short reads, no failure, with and without a limit. -/
theorem witness_StreamingEquivalence :
    ReadChoice.ioError ∉ (Source.mk (as 130) [.count 1, .count 63, .count 50]).script ∧
    as 70 = (match (some 70 : Option Nat) with | none => as 130 | some n => (as 130).take n) ∧
    as 130 = (match (none : Option Nat) with | none => as 130 | some n => (as 130).take n) := by decide

theorem witness_DigestTerminates : ReadChoice.ioError ∉ (Source.mk (as 130) [.count 1, .count 63]).script := by decide

theorem witness_DigestIsPure :
    ReadChoice.ioError ∉ (Source.mk (as 130) [.count 1]).script ∧ ReadChoice.ioError ∉ (Source.mk (as 70) []).script ∧
    as 70 = (match (some 70 : Option Nat) with | none => as 130 | some n => (as 130).take n) ∧
    as 70 = (match (none : Option Nat) with | none => as 70 | some n => (as 70).take n) ∧
    State.reset.phase ≠ .fault ∧ (stateIn frozenEmpty).phase ≠ .fault ∧ State.reset.cmd = [] ∧
    (stateIn frozenEmpty).cmd = [] ∧ 8 * (as 70).length ≤ 2 ^ 64 - 1 := by decide

theorem witness_IOErrorGivesNoDigest :
    (digestPlan ⟨as 130, [.count 64, .count 10, .ioError]⟩ none).ioError = true ∧ State.reset.phase ≠ .fault ∧
    State.reset.cmd = [] ∧ 8 * (as 130).length ≤ 2 ^ 64 - 1 := by decide +kernel

theorem witness_TooLongStreamFaults :
    State.reset.phase ≠ .fault ∧ State.reset.cmd = [] ∧ ∃ m : List Byte, 8 * m.length > 2 ^ 64 - 1 :=
  ⟨by decide, rfl, List.replicate (2 ^ 61) 0x00, by rw [List.length_replicate]; norm_num⟩

theorem witness_DigestInFaultGetsNothing : faulted.phase = .fault := by decide

/-- One run for each result: a digest, a failed source, a start in `FAULT`. -/
theorem witness_DigestReturnsInPhase :
    State.reset.cmd = [] ∧ (∃ d t, runDigest ⟨[], []⟩ none State.reset = .next (.digest d, t)) ∧
    (∃ t, runDigest ⟨[], [.ioError]⟩ none State.reset = .next (.noDigest, t)) ∧
    (stateInFault 0x03 []).cmd = [] ∧
    (∃ t, runDigest ⟨[], [.ioError]⟩ none (stateInFault 0x03 []) = .next (.noResponse, t)) := by
  refine ⟨rfl, ⟨_, _, rfl⟩, ⟨_, rfl⟩, rfl, ⟨_, rfl⟩⟩

/-- Messages at the block boundaries; a lawful sequence that abandons a computation and leaves a digest unread. -/
theorem witness_LawfulRunsComplete :
    (∀ m ∈ [as 0, as 64, as 130], 8 * m.length ≤ 2 ^ 64 - 1) ∧
    lawful .idle 0 [.init, .block (as 64), .init, .final (as 63), .init, .final [], .extract] = true := by decide

/-- The empty message's packets with a reserved `OP` behind them: the computation completes, and the run then faults. -/
def runThenFault : List Byte := [0x01, 0x00, 0x03, 0x00, 0x04, 0x00, 0x05, 0x00]

theorem witness_CompletedComputationInRun :
    DigestCompletesInRun runThenFault [] [] (digestBytes emptyAccum) ∧
    lawful .idle 0 [.init, .block (as 64)] = true ∧ 8 * (as 130).length ≤ 2 ^ 64 - 1 := by
  refine ⟨⟨0, _, { stateWith .idle [0x05, 0x00] with resp := [0x00, 0x00, 0x00] ++ digestBytes emptyAccum }, rfl,
    { stateWith frozenEmpty [0x04, 0x00, 0x05, 0x00] with resp := [0x00, 0x00] },
    ⟨[0x00], { stateWith fresh [0x03, 0x00, 0x04, 0x00, 0x05, 0x00] with resp := [0x00] }, ?_, [0x00], _, ?_, rfl⟩, ?_⟩,
    by decide, by decide⟩
  · exact ⟨by decide, by decide, by decide, eq_next_of_nextOf (by decide), by decide, by decide⟩
  · exact ⟨by decide, by decide, by decide, eq_next_of_nextOf (by decide +kernel), by decide, by decide⟩
  · exact ⟨by decide, by decide, by decide, eq_next_of_nextOf (by decide), by decide, by decide⟩

theorem witness_HexFormRule : (digestBytes emptyAccum).length = 20 ∧ (digestBytes emptyAccum)[19]? = some 0x09 := by decide

/-- A two-engine system with engines in different phases. -/
theorem witness_EnginesShareNothing :
    ([State.reset, faulted] : EngineSystem)[1]? = some faulted ∧ eventsOf 1 [(0, .run), (1, .reset)] = [.reset] := by decide

theorem witness_DisassembleAssemble :
    (Instr.final (as 63)).wellFormed = true ∧
    (0x033F : CmdWord) = (Instr.final (as 63)).op.byte ++ (Instr.final (as 63)).len ∧
    ∀ op, classify 0x0340 ≠ .legal op := ⟨by decide, by decide, fun op => by cases op <;> decide⟩

theorem witness_AssembleRule :
    (AsmBytes.hex (as 63)).denote.length ≠ 64 ∧ 63 < (AsmBytes.hex (as 64)).denote.length ∧
    (AsmBytes.repeated (.ascii ['a']) 64).denote.length = 64 ∧ (AsmBytes.ascii []).denote.length ≤ 63 := by decide

end Sys2Proof.Tests
end

section
/-! PROOFS. The byte-order functions of 00_scope.md R7 as big-endian positional numbers. -/

namespace Sys2Proof.Machine

/-- Appending a byte below a value multiplies the value by 256 and adds the byte. -/
theorem append_byte_toNat {n : Nat} (hi : BitVec n) (lo : Byte) :
    (hi ++ lo).toNat = hi.toNat * 256 + lo.toNat := by
  rw [BitVec.toNat_append, ← Nat.shiftLeft_add_eq_or_of_lt lo.isLt, Nat.shiftLeft_eq]

/-- The value above bit `k + 8`, with the byte field at `k` as its next base-256 digit, is the value above bit `k`. -/
theorem shiftRight_mul_add_byteField {n : Nat} (v : BitVec n) (k : Nat) :
    (v.toNat >>> (k + 8)) * 256 + (v.extractLsb' k 8).toNat = v.toNat >>> k := by
  rw [BitVec.extractLsb'_toNat, Nat.shiftRight_add, Nat.shiftRight_eq_div_pow (v.toNat >>> k) 8]
  exact Nat.div_add_mod' (v.toNat >>> k) 256

/-- `be32` is the base-256 value of its bytes, the first byte the most significant digit. -/
theorem be32_toNat (b0 b1 b2 b3 : Byte) :
    (be32 b0 b1 b2 b3).toNat = b0.toNat * 2 ^ 24 + b1.toNat * 2 ^ 16 + b2.toNat * 2 ^ 8 + b3.toNat := by
  simp only [be32, append_byte_toNat]
  omega

/-- `be32` undoes `be32_bytes`: neighbouring byte fields join, and the joined field is the whole word. -/
theorem be32_byteFields (v : Word) :
    be32 (v.extractLsb' 24 8) (v.extractLsb' 16 8) (v.extractLsb' 8 8) (v.extractLsb' 0 8) = v := by
  have h16 : v.extractLsb' 24 8 ++ v.extractLsb' 16 8 = v.extractLsb' 16 16 :=
    BitVec.extractLsb'_append_extractLsb'_eq_extractLsb' rfl
  have h8 : v.extractLsb' 16 16 ++ v.extractLsb' 8 8 = v.extractLsb' 8 24 :=
    BitVec.extractLsb'_append_extractLsb'_eq_extractLsb' rfl
  rw [be32, h16, h8]
  exact BitVec.extractLsb'_append_extractLsb'

/-- The bytes of `be64_bytes`, read as a base-256 number, are the value: the reading starts above bit 64, where nothing is
left, and comes down one byte field at a time. -/
theorem be64Bytes_foldl (v : Count) : (be64Bytes v).foldl (fun n b => n * 256 + b.toNat) 0 = v.toNat := by
  have h64 : v.toNat >>> 64 = 0 := Nat.shiftRight_eq_zero v.toNat 64 v.isLt
  calc (be64Bytes v).foldl (fun n b => n * 256 + b.toNat) 0
      = (be64Bytes v).foldl (fun n b => n * 256 + b.toNat) (v.toNat >>> (56 + 8)) := by rw [h64]
    _ = v.toNat >>> 0 := by simp only [be64Bytes, List.foldl_cons, List.foldl_nil, shiftRight_mul_add_byteField v]
    _ = v.toNat := Nat.shiftRight_zero

/-- Settles O8, from the positional reading of `be32` and `be64_bytes` and the joining of neighbouring byte fields. -/
theorem byteOrderFunctions : Obligations.ByteOrderFunctions :=
  ⟨be32_toNat, fun v => ⟨rfl, be32_byteFields v⟩, fun v => ⟨rfl, be64Bytes_foldl v⟩⟩

end Sys2Proof.Machine
end

section
/-! PROOFS. What each command does where its checks pass and where its phase check fails, as equations of `exec`, and the
phase table of 10_state.md R15. -/

namespace Sys2Proof.Machine

open Sys2Proof.Safety

/-! ### The phase table, column by column -/

theorem phaseTable_init {q : Phase} (h : q ≠ .fault) : phaseTable q .init = some .active := by
  cases q with
  | idle | active | frozen => rfl
  | fault => exact absurd rfl h

theorem phaseTable_block (q : Phase) : phaseTable q .block = if q = .active then some .active else none := by
  cases q <;> rfl

theorem phaseTable_final (q : Phase) : phaseTable q .final = if q = .active then some .frozen else none := by
  cases q <;> rfl

theorem phaseTable_extract (q : Phase) : phaseTable q .extract = if q = .frozen then some .idle else none := by
  cases q <;> rfl

/-! ### The commands as equations -/

/-- In `FAULT` a command changes nothing (60_exceptions.md R113). -/
theorem exec_fault {s : State} (h : s.phase = .fault) (i : Instr) : exec i s = .next s := by
  cases i with
  | init | block | final | extract => exact unlessFault_fault h _

/-- `INIT` is accepted in every phase but `FAULT` (41_absorb.md R70). -/
theorem exec_init {s : State} (h : s.phase ≠ .fault) :
    exec .init s = .next ((s.setStage (.active ⟨initialAccum, 0⟩)).respond [statusOk]) :=
  unlessFault_of_ne h _

/-- `BLOCK` of 64 bytes outside `FAULT` has only the phase and the overflow check left to pass. -/
theorem exec_block {s : State} {p : List Byte} (h : s.phase ≠ .fault) (hp : p.length = 64) :
    exec (.block p) s = requireActive s fun d => requireRoom d 512 s (absorbBlock p d s) := by
  simp only [exec, execBlock, unlessFault_of_ne h, requireLength_eq, hp, beq_self_eq_true, if_true]

/-- An accepted `BLOCK` (41_absorb.md R72). -/
theorem exec_block_active {s : State} {d : DigestState} {p : List Byte} (hs : s.stage = .active d)
    (hp : p.length = 64) (hr : d.bitlen.toNat + 512 ≤ 2 ^ 64 - 1) :
    exec (.block p) s = .next (((s.setBuf (releaseBlock s.buf)).setStage
      (.active ⟨compress d.acc p, d.bitlen + 512⟩)).respond [statusOk]) := by
  rw [exec_block (by simp [phase_def, hs]) hp, requireActive_active hs, requireRoom_eq, if_pos hr, absorbBlock_ok hp]

/-- `FINAL` of at most 63 bytes outside `FAULT` has only the phase and the overflow check left to pass. -/
theorem exec_final {s : State} {p : List Byte} (h : s.phase ≠ .fault) (hp : p.length ≤ 63) :
    exec (.final p) s = requireActive s fun d => requireRoom d (8 * p.length) s (finishDigest p d s) := by
  simp only [exec, execFinal, unlessFault_of_ne h, requireLength_eq, Config.finalMax, hp, decide_true, if_true]

/-- An accepted `FINAL` (42_finalize.md R82). -/
theorem exec_final_active {s : State} {d : DigestState} {p : List Byte} (hs : s.stage = .active d)
    (hp : p.length ≤ 63) (hr : d.bitlen.toNat + 8 * p.length ≤ 2 ^ 64 - 1) :
    exec (.final p) s = .next (((s.setBuf (releaseBlock s.buf)).setStage
      (.frozen ⟨foldTailAccum d.acc (paddedTail p (d.bitlen + payloadBits (Instr.final p).len)),
        d.bitlen + payloadBits (Instr.final p).len⟩)).respond [statusOk]) := by
  rw [exec_final (by simp [phase_def, hs]) hp, requireActive_active hs, requireRoom_eq, if_pos hr, finishDigest_ok hp]

/-- `EXTRACT` outside `FAULT` has only the phase check to pass. -/
theorem exec_extract {s : State} (h : s.phase ≠ .fault) :
    exec .extract s =
      requireFrozen s fun d => .next ((s.setStage .idle).respond (statusOk :: digestBytes d.acc)) :=
  unlessFault_of_ne h _

/-- An accepted `EXTRACT` (42_finalize.md R86). -/
theorem exec_extract_frozen {s : State} {d : DigestState} (hs : s.stage = .frozen d) :
    exec .extract s = .next ((s.setStage .idle).respond (statusOk :: digestBytes d.acc)) := by
  rw [exec_extract (by simp [phase_def, hs]), requireFrozen_frozen hs]

/-! ### The commands against the phase table -/

/-- A pair not listed in the phase table is `E_PHASE` (10_state.md R15). -/
theorem exec_unlisted {i : Instr} {s : State} (hw : i.wellFormed = true) (hf : s.phase ≠ .fault)
    (h : phaseTable s.phase i.op = none) : exec i s = .next (takeFault .phase s) := by
  cases i with
  | init => simp [Instr.op, phaseTable_init hf] at h
  | block p =>
    have ha : s.phase ≠ .active := by simpa [Instr.op, phaseTable_block] using h
    rw [exec_block hf (eq_of_beq hw), requireActive_of_ne ha]
  | final p =>
    have ha : s.phase ≠ .active := by simpa [Instr.op, phaseTable_final] using h
    rw [exec_final hf (of_decide_eq_true hw), requireActive_of_ne ha]
  | extract =>
    have hz : s.phase ≠ .frozen := by simpa [Instr.op, phaseTable_extract] using h
    rw [exec_extract hf, requireFrozen_of_ne hz]

/-- A pair listed in the phase table moves as listed, where the count has room for a block (10_state.md R15). -/
theorem exec_listed {i : Instr} {s : State} {q : Phase} (hw : i.wellFormed = true) (hf : s.phase ≠ .fault)
    (hr : ∀ d, s.stage = .active d → d.bitlen.toNat + 512 ≤ 2 ^ 64 - 1) (h : phaseTable s.phase i.op = some q) :
    ∃ t, exec i s = .next t ∧ t.phase = q := by
  cases i with
  | init =>
    obtain rfl : Phase.active = q := by simpa [Instr.op, phaseTable_init hf] using h
    exact ⟨_, exec_init hf, by simp⟩
  | block p =>
    obtain ⟨ha, rfl⟩ : s.phase = .active ∧ Phase.active = q := by simpa [Instr.op, phaseTable_block] using h
    obtain ⟨d, hs⟩ := (phase_eq_active s).1 ha
    exact ⟨_, exec_block_active hs (eq_of_beq hw) (hr d hs), by simp⟩
  | final p =>
    obtain ⟨ha, rfl⟩ : s.phase = .active ∧ Phase.frozen = q := by simpa [Instr.op, phaseTable_final] using h
    obtain ⟨d, hs⟩ := (phase_eq_active s).1 ha
    have hp : p.length ≤ 63 := of_decide_eq_true hw
    have hroom := hr d hs
    exact ⟨_, exec_final_active hs hp (by omega), by simp⟩
  | extract =>
    obtain ⟨hz, rfl⟩ : s.phase = .frozen ∧ Phase.idle = q := by simpa [Instr.op, phaseTable_extract] using h
    obtain ⟨d, hs⟩ := (phase_eq_frozen s).1 hz
    exact ⟨_, exec_extract_frozen hs, by simp⟩

/-- Settles O25, from what listed pairs, unlisted pairs and commands in `FAULT` do. -/
theorem phaseTableRule : Obligations.PhaseTableRule :=
  ⟨fun _ _ hw hf hr => ⟨fun _ h => exec_listed hw hf hr h, exec_unlisted hw hf⟩,
    fun i _ h => exec_fault h i, fun _ => rfl⟩

end Sys2Proof.Machine
end

section
/-! PROOFS. Issuing commands to an engine with no packet pending, and the state after `INIT` and any number of blocks
(10_state.md R13). -/

namespace Sys2Proof.Machine

/-- The decoder reads back a legal packet and leaves the bytes behind it (30_encoding.md R54). -/
theorem decode_encode_append {i : Instr} (h : i.wellFormed = true) (rest : List Byte) :
    decode (encode i ++ rest) = .packet i rest := by
  simp [encode, decode_cons_cons, len_toNat h, lenLegal_of_wellFormed h]

/-- With a legal packet at the front of the command stream, a step executes it (30_encoding.md R50). -/
theorem step_encode_append {i : Instr} {s : State} {rest : List Byte} (hw : i.wellFormed = true)
    (hf : s.phase ≠ .fault) (hc : s.cmd = encode i ++ rest) : step s = exec i (s.setCmd rest) := by
  simp only [step, fetch_of_ne hf, fetchPacket, hc, decode_encode_append hw]

/-- The new bytes are those appended to the response stream. -/
theorem newBytes_of_append {s t : State} {r : List Byte} (h : t.resp = s.resp ++ r) : newBytes s t = r := by
  rw [newBytes, h, List.drop_left]

/-- Issued with no packet pending, a legal command executes, and what it appends is its response. -/
theorem issue_of_exec {i : Instr} {s t : State} {r : List Byte} (hw : i.wellFormed = true) (hf : s.phase ≠ .fault)
    (hc : s.cmd = []) (he : exec i s = .next (t.respond r)) (hr : t.resp = s.resp) :
    issue i s = .next (r, t.respond r) := by
  have hcmd : (hostAppend (encode i) s).cmd = encode i ++ [] := by simp [hc]
  have hclear : (hostAppend (encode i) s).setCmd [] = s := by rw [hostAppend, setCmd_setCmd, ← hc, setCmd_self]
  have hstep : step (hostAppend (encode i) s) = .next (t.respond r) := by
    rw [step_encode_append (s := hostAppend (encode i) s) hw hf hcmd, hclear, he]
  have hnew : newBytes s (t.respond r) = r := newBytes_of_append (by rw [respond_resp, hr])
  simp only [issue, hstep, hnew]

/-- Issuing a command and then the others. -/
theorem issueAll_cons {i : Instr} {is : List Instr} {s t u : State} {r : List Byte} {rs : List (List Byte)}
    (h : issue i s = .next (r, t)) (hs : issueAll is t = .next (rs, u)) :
    issueAll (i :: is) s = .next (r :: rs, u) := by
  simp only [issueAll, h, hs]

/-- A count with room for a block is 512 more after it. -/
theorem toNat_add_512 {n : Count} (h : n.toNat + 512 ≤ 2 ^ 64 - 1) : (n + 512).toNat = n.toNat + 512 :=
  BitVec.toNat_add_of_lt (Nat.lt_of_le_pred (by decide) h)

/-- `INIT`, issued outside `FAULT` with no packet pending. -/
theorem issue_init {s : State} (hf : s.phase ≠ .fault) (hc : s.cmd = []) :
    ∃ t, issue .init s = .next ([statusOk], t) ∧ t.stage = .active ⟨initialAccum, 0⟩ ∧ t.cmd = [] ∧
      t.errcode = s.errcode :=
  ⟨_, issue_of_exec rfl hf hc (exec_init hf) (setStage_resp _ _), by simp, by simp [hc], by simp⟩

/-- A `BLOCK` with room in the count, issued in `ACTIVE` with no packet pending. -/
theorem issue_block {s : State} {d : DigestState} {B : List Byte} (hs : s.stage = .active d) (hc : s.cmd = [])
    (hB : B.length = 64) (hr : d.bitlen.toNat + 512 ≤ 2 ^ 64 - 1) :
    ∃ t, issue (.block B) s = .next ([statusOk], t) ∧ t.stage = .active ⟨compress d.acc B, d.bitlen + 512⟩ ∧
      t.cmd = [] ∧ t.errcode = s.errcode := by
  have hw : (Instr.block B).wellFormed = true := beq_iff_eq.2 hB
  have hf : s.phase ≠ .fault := by simp [phase_def, hs]
  exact ⟨_, issue_of_exec hw hf hc (exec_block_active hs hB hr) (by simp), by simp, by simp [hc], by simp⟩

/-- Blocks issued in `ACTIVE`, with room for all of them, are all answered `00`, add 512 each to the count and are folded
into the accumulator in order. -/
theorem issueAll_blocks (blocks : List (List Byte)) {s : State} {d : DigestState} (hs : s.stage = .active d)
    (hc : s.cmd = []) (hb : ∀ B ∈ blocks, B.length = 64)
    (hr : d.bitlen.toNat + 512 * blocks.length ≤ 2 ^ 64 - 1) :
    ∃ (t : State) (L : Count), issueAll (blocks.map .block) s = .next (List.replicate blocks.length [statusOk], t) ∧
      L.toNat = d.bitlen.toNat + 512 * blocks.length ∧ t.stage = .active ⟨blocks.foldl compress d.acc, L⟩ ∧
      t.cmd = [] ∧ t.errcode = s.errcode := by
  induction blocks generalizing s d with
  | nil => exact ⟨s, d.bitlen, rfl, rfl, hs, hc, rfl⟩
  | cons B blocks ih =>
    obtain ⟨hB, hb⟩ := List.forall_mem_cons.1 hb
    rw [List.length_cons] at hr ⊢
    have hroom : d.bitlen.toNat + 512 ≤ 2 ^ 64 - 1 :=
      (Nat.add_le_add_left (Nat.le_mul_of_pos_right 512 (Nat.succ_pos _)) _).trans hr
    have hcount := toNat_add_512 hroom
    obtain ⟨u, hissue, hu, hcu, heu⟩ := issue_block hs hc hB hroom
    obtain ⟨t, L, hall, hL, ht, hct, het⟩ := ih hu hcu hb (by rw [hcount]; omega)
    exact ⟨t, L, issueAll_cons hissue hall, by rw [hL, hcount]; omega, ht, hct, het.trans heu⟩

/-- Settles O45: `INIT` starts from the constants and a zero count, and the blocks are folded into them. -/
theorem stateAfterBlocks : Obligations.StateAfterBlocks := by
  intro s blocks hf hc hb hr
  obtain ⟨u, hissue, hu, hcu, heu⟩ := issue_init hf hc
  obtain ⟨t, L, hall, hL, ht, hct, het⟩ := issueAll_blocks blocks hu hcu hb (by simpa using hr)
  exact ⟨_, t, L, issueAll_cons hissue hall, by simpa using hL, ht, rfl, hct, het.trans heu⟩

end Sys2Proof.Machine
end

section
/-! PROOFS. The response to each outcome of a step (30_encoding.md R46). -/

namespace Sys2Proof.Machine

/-- The fault codes are the bytes 1 to 4 (60_exceptions.md R105). -/
theorem byte_mem_codes (c : FaultCode) : c.byte = 0x01 ∨ c.byte = 0x02 ∨ c.byte = 0x03 ∨ c.byte = 0x04 := by
  cases c <;> decide

/-- The response `r` of a step from `s` to `t`, by what the step was. -/
inductive ResponseCase (s t : State) : List Byte → Prop where
  | discard (h : s.phase = .fault) : ResponseCase s t []
  | wait (h : s.phase ≠ .fault) (d : decode s.cmd = .incomplete) (e : t = s) : ResponseCase s t []
  | fault (c : FaultCode) (h : s.phase ≠ .fault) (d : decode s.cmd ≠ .incomplete) (ht : t.phase = .fault)
      (e : t.errcode = c.byte) : ResponseCase s t [c.byte]
  | status (i : Instr) (rest : List Byte) (h : s.phase ≠ .fault) (d : decode s.cmd = .packet i rest)
      (hi : i ≠ .extract) (ht : t.phase ≠ .fault) : ResponseCase s t [0x00]
  | digest (d : DigestState) (rest : List Byte) (h : s.stage = .frozen d)
      (hd : decode s.cmd = .packet .extract rest) (ht : t.phase ≠ .fault) :
      ResponseCase s t (0x00 :: digestBytes d.acc)

/-- A command executed outside `FAULT` appends the response of its outcome. -/
theorem execCase_response {i : Instr} {s t : State} {rest : List Byte} (hf : s.phase ≠ .fault)
    (hd : decode s.cmd = .packet i rest) (hc : ExecCase i (s.setCmd rest) t) :
    ∃ r, t.resp = s.resp ++ r ∧ ResponseCase s t r := by
  have hne : decode s.cmd ≠ .incomplete := by simp [hd]
  cases hc with
  | discarded h => exact absurd h hf
  | faulted c => exact ⟨_, rfl, .fault c hf hne rfl rfl⟩
  | init e => exact ⟨_, rfl, .status i rest hf hd (by simp [e]) (by simp)⟩
  | block p d e => exact ⟨_, rfl, .status i rest hf hd (by simp [e]) (by simp)⟩
  | final p d e => exact ⟨_, rfl, .status i rest hf hd (by simp [e]) (by simp)⟩
  | extract d e hs => exact ⟨_, rfl, .digest d rest hs (e ▸ hd) (by simp)⟩

/-- Every step appends the response of its outcome. -/
theorem step_response {s t : State} (h : step s = .next t) : ∃ r, t.resp = s.resp ++ r ∧ ResponseCase s t r := by
  cases step_inv h with
  | discard hf => exact ⟨[], by simp, .discard hf⟩
  | wait hf hd => exact ⟨[], by simp, .wait hf hd rfl⟩
  | reserved rest hf hd => exact ⟨_, rfl, .fault .opcode hf (by simp [hd]) rfl rfl⟩
  | illegal rest hf hd => exact ⟨_, rfl, .fault .length hf (by simp [hd]) rfl rfl⟩
  | run i rest _ hf hd hc => exact execCase_response hf hd hc

/-- Settles O26, clause by clause from the response of each outcome. -/
theorem responseRule : Obligations.ResponseRule := by
  intro s t hstep
  obtain ⟨r, hr, hc⟩ := step_response hstep
  refine ⟨r, hr, ?_⟩
  cases hc with
  | discard h => simp [h]
  | wait h d e => simp [h, d, e]
  | fault c h d ht e => simpa [h, d, ht, e] using byte_mem_codes c
  | status i rest h d hi ht => simp [h, d, ht, hi]
  | digest d rest h hd ht =>
    have hphase : s.phase = .frozen := (phase_eq_frozen s).2 ⟨d, h⟩
    simp [hphase, h, hd, ht]

end Sys2Proof.Machine
end

section
/-! PROOFS. Waiting for the rest of a packet (30_encoding.md R53). -/

namespace Sys2Proof.Machine

open Sys2Proof.Safety

/-- A command word of fewer than two bytes is incomplete. -/
theorem decode_of_length_lt_two {bytes : List Byte} (h : bytes.length < 2) : decode bytes = .incomplete := by
  match bytes with
  | [] => exact decode_nil
  | [b] => exact decode_singleton b
  | _ :: _ :: _ => simp at h

/-- A legal command word with fewer than `LEN` bytes behind it is incomplete. -/
theorem decode_of_short_payload {op len : Byte} {o : Op} {rest : List Byte} (ho : Op.ofByte op = some o)
    (hl : o.lenLegal len.toNat = true) (hr : rest.length < len.toNat) :
    decode (op :: len :: rest) = .incomplete := by
  simp [decode_cons_cons, ho, hl, hr]

/-- A waiting engine's step changes nothing. -/
theorem step_of_waiting {s : State} (h : Waiting s) : step s = .next s := by
  obtain ⟨hf, hd⟩ := h
  simp only [step, fetch_of_ne hf, fetchPacket, hd]

/-- A state that a step leaves as it is, any number of steps leave as it is. -/
theorem run_of_step_self {s : State} (h : step s = .next s) (k : Nat) : Sys2Proof.core.run k s = .next s := by
  induction k with
  | zero => rfl
  | succ k ih => simpa only [Host.Core.run, Host.Check.core_step, h] using ih

/-- A run that ends inside a packet is no completed run (70_reset_and_hazards.md R126). -/
theorem not_completesFrom_of_waiting {s : State} (h : Waiting s) (hc : s.cmd ≠ []) : ¬ CompletesFrom s := by
  obtain ⟨_, hd⟩ := h
  intro hrun
  cases hrun with
  | done _ _ e => exact hc e
  | packet _ _ _ _ _ d => simp [hd] at d

/-- Settles O37: an incomplete packet makes the engine wait, a waiting step is the identity, and the whole packet decodes. -/
theorem incompletePacketWaits : Obligations.IncompletePacketWaits :=
  ⟨fun _ hf hlen => run_of_step_self (step_of_waiting ⟨hf, decode_of_length_lt_two hlen⟩),
    fun _ _ _ _ _ hf hcmd ho hl hr =>
      run_of_step_self (step_of_waiting ⟨hf, hcmd ▸ decode_of_short_payload ho hl hr⟩),
    fun _ => not_completesFrom_of_waiting,
    fun _ i _ hf hw hcmd => step_encode_append hw hf (hcmd.trans (List.append_nil (encode i)).symm)⟩

end Sys2Proof.Machine
end

section
/-! PROOFS. The word operations of a round: `ROTL` (40_datapath.md R55), the round function (R60), the round constant (R61). -/

namespace Sys2Proof.Machine

/-! ### `ROTL` is a rotation -/

/-- The shift-and-join form of `ROTL` is the library's rotation. -/
theorem rotl_eq_rotateLeft (x : Word) {n : Nat} (h : n < 32) : rotl x n = x.rotateLeft n :=
  (BitVec.rotateLeft_eq_rotateLeftAux_of_lt h).symm

/-- The bits shifted up and the bits brought round do not overlap, so joining them adds them. -/
theorem rotl_toNat (x : Word) {n : Nat} (h : n ≤ 31) :
    (rotl x n).toNat = x.toNat * 2 ^ n % 2 ^ 32 + x.toNat / 2 ^ (32 - n) := by
  have hpow : 2 ^ 32 = 2 ^ (32 - n) * 2 ^ n := by rw [← Nat.pow_add, Nat.sub_add_cancel (by omega)]
  have hlow : x.toNat / 2 ^ (32 - n) < 2 ^ n := Nat.div_lt_of_lt_mul (hpow ▸ x.isLt)
  have hhigh : x.toNat * 2 ^ n % 2 ^ 32 = (x.toNat % 2 ^ (32 - n)) <<< n := by
    rw [hpow, Nat.mul_mod_mul_right, Nat.shiftLeft_eq]
  rw [rotl, BitVec.toNat_or, BitVec.toNat_shiftLeft, BitVec.toNat_ushiftRight, Nat.shiftLeft_eq,
    Nat.shiftRight_eq_div_pow, hhigh, Nat.shiftLeft_add_eq_or_of_lt hlow]

/-- Bit `j` comes from bit `(j - n) mod 32`. -/
theorem rotl_getLsbD (x : Word) {n j : Nat} (hn : n ≤ 31) (hj : j < 32) :
    (rotl x n).getLsbD j = x.getLsbD ((j + 32 - n) % 32) := by
  rw [rotl_eq_rotateLeft x (by omega), BitVec.getLsbD_rotateLeft_of_le (by omega)]
  rcases Nat.lt_or_ge j n with h | h
  · have hidx : (j + 32 - n) % 32 = 32 - n + j := by omega
    simp [h, hidx]
  · have hidx : (j + 32 - n) % 32 = j - n := by omega
    simp [Nat.not_lt.2 h, hj, hidx]

/-- Adding `k` modulo `w` to the indices below `w` rotates their list. -/
theorem map_add_mod_range (w k : Nat) : ((List.range w).map fun j => (j + k) % w) = (List.range w).rotate k :=
  List.ext_getElem (by simp) fun i h₁ h₂ => by simp [List.getElem_rotate]

/-- `ROTL` permutes the bit positions, so it neither loses nor invents a one bit. -/
theorem countP_rotl (x : Word) {n : Nat} (h : n ≤ 31) :
    ((List.range 32).countP fun j => (rotl x n).getLsbD j) = (List.range 32).countP fun j => x.getLsbD j := by
  have hbit : ∀ j ∈ List.range 32, (rotl x n).getLsbD j = x.getLsbD ((j + (32 - n)) % 32) := fun j hj => by
    rw [rotl_getLsbD x h (List.mem_range.1 hj), Nat.add_sub_assoc (by omega)]
  calc ((List.range 32).countP fun j => (rotl x n).getLsbD j)
      = (List.range 32).countP fun j => x.getLsbD ((j + (32 - n)) % 32) :=
        List.countP_congr fun j hj => by rw [hbit j hj]
    _ = ((List.range 32).map fun j => (j + (32 - n)) % 32).countP x.getLsbD := List.countP_map.symm
    _ = ((List.range 32).rotate (32 - n)).countP x.getLsbD := by rw [map_add_mod_range]
    _ = (List.range 32).countP x.getLsbD := (List.rotate_perm _ _).countP_eq _

/-- A word whose bits are all alike is fixed by `ROTL`. -/
theorem rotl_eq_self_of_bits_eq {x : Word} {v : Bool} (hx : ∀ j, j < 32 → x.getLsbD j = v) {n : Nat} (h : n ≤ 31) :
    rotl x n = x :=
  BitVec.eq_of_getLsbD_eq fun j hj => by
    rw [rotl_getLsbD x h hj, hx _ (Nat.mod_lt _ (by decide)), hx j hj]

/-- Settles O9: `ROTL` moves bit `(j - n) mod 32` to bit `j`, which fixes its value, its one bits and its corner cases. -/
theorem rotateLeftRule : Obligations.RotateLeftRule :=
  ⟨fun x _ _ h => ⟨rotl_toNat x h, fun _ => rotl_getLsbD x h, countP_rotl x h,
      rotl_eq_self_of_bits_eq (v := false) (by decide) h, rotl_eq_self_of_bits_eq (v := true) (by decide) h⟩,
    fun _ => BitVec.or_comm _ _, by decide, by decide⟩

/-! ### The round function and the round constant, row by row -/

/-- Rounds 0 to 19. -/
theorem roundF_of_le_19 {i : Nat} (h : i ≤ 19) (b c d : Word) : roundF i b c d = (b &&& c) ||| (~~~b &&& d) :=
  if_pos (by omega)

/-- Rounds 20 to 39 and 60 on. -/
theorem roundF_of_parity_row {i : Nat} (h : 20 ≤ i ∧ i ≤ 39 ∨ 60 ≤ i) (b c d : Word) :
    roundF i b c d = b ^^^ c ^^^ d := by
  rcases h with ⟨h₁, h₂⟩ | h
  · rw [roundF, if_neg (by omega), if_pos (by omega)]
  · rw [roundF, if_neg (by omega), if_neg (by omega), if_neg (by omega)]

/-- Rounds 40 to 59. -/
theorem roundF_of_majority_row {i : Nat} (h : 40 ≤ i ∧ i ≤ 59) (b c d : Word) :
    roundF i b c d = (b &&& c) ||| (b &&& d) ||| (c &&& d) := by
  rw [roundF, if_neg (by omega), if_neg (by omega), if_pos (by omega)]

/-- The choice, bit by bit: `b` selects `c` or `d`. -/
theorem choice_getLsbD (b c d : Word) {j : Nat} (hj : j < 32) :
    ((b &&& c) ||| (~~~b &&& d)).getLsbD j = if b.getLsbD j then c.getLsbD j else d.getLsbD j := by
  simp only [BitVec.getLsbD_or, BitVec.getLsbD_and, BitVec.getLsbD_not, hj, decide_true, Bool.true_and]
  cases b.getLsbD j <;> simp

/-- The exclusive or of three Booleans is their sum's parity. -/
theorem xor_xor_eq_decide_odd (p q r : Bool) : ((p ^^ q) ^^ r) = decide ((p.toNat + q.toNat + r.toNat) % 2 = 1) := by
  decide +revert

/-- Two of three Booleans hold exactly if their sum is at least 2. -/
theorem or_and_eq_decide_two_le (p q r : Bool) :
    (p && q || p && r || q && r) = decide (2 ≤ p.toNat + q.toNat + r.toNat) := by
  decide +revert

/-- Settles O10: each row's formula, and what it says bit by bit. -/
theorem roundFunctionRule : Obligations.RoundFunctionRule := by
  refine ⟨fun i b c d _ => ⟨fun h => ?choice, fun h => ?parity, fun h => ?majority⟩, by decide, by decide, by decide,
    by decide⟩
  case choice =>
    rw [roundF_of_le_19 h]
    exact ⟨rfl, fun _ => choice_getLsbD b c d⟩
  case parity =>
    rw [roundF_of_parity_row h]
    refine ⟨rfl, fun j _ => ?_⟩
    rw [BitVec.getLsbD_xor, BitVec.getLsbD_xor, xor_xor_eq_decide_odd]
  case majority =>
    rw [roundF_of_majority_row h]
    refine ⟨rfl, fun j _ => ?_⟩
    simp only [BitVec.getLsbD_or, BitVec.getLsbD_and, or_and_eq_decide_two_le]

/-- Settles O11: the tests of `roundK`, answered in each of the four ranges. -/
theorem roundConstantRule : Obligations.RoundConstantRule := by
  refine fun i _ => ⟨fun h => ?_, fun ⟨h₁, h₂⟩ => ?_, fun ⟨h₁, h₂⟩ => ?_, fun h => ?_⟩
  · exact if_pos (by omega)
  · rw [roundK, if_neg (by omega), if_pos (by omega)]
  · rw [roundK, if_neg (by omega), if_neg (by omega), if_pos (by omega)]
  · rw [roundK, if_neg (by omega), if_neg (by omega), if_neg (by omega)]

end Sys2Proof.Machine
end

section
/-! PROOFS. The schedule of a block (40_datapath.md R58, R59) and `COMPRESS` (R62 to R65) as sequences indexed by the round. -/

namespace Sys2Proof.Machine

/-! ### The words of a block -/

/-- Word `j` of a block: its bytes `4 j` to `4 j + 3`, big-endian (40_datapath.md R58). -/
def blockWord (B : List Byte) (j : Nat) : Word :=
  be32 (B.getD (4 * j) 0) (B.getD (4 * j + 1) 0) (B.getD (4 * j + 2) 0) (B.getD (4 * j + 3) 0)

/-- The value of a block's word, byte by byte. -/
theorem blockWord_toNat (B : List Byte) (j : Nat) :
    (blockWord B j).toNat = (B.getD (4 * j) 0).toNat * 2 ^ 24 + (B.getD (4 * j + 1) 0).toNat * 2 ^ 16 +
      (B.getD (4 * j + 2) 0).toNat * 2 ^ 8 + (B.getD (4 * j + 3) 0).toNat :=
  be32_toNat _ _ _ _

/-- The load makes word after word of the block. -/
theorem scheduleLoad_eq_map (n : Nat) {B : List Byte} (h : B.length = 4 * n) :
    scheduleLoad B = (List.range n).map (blockWord B) := by
  induction n generalizing B with
  | zero => rw [List.length_eq_zero_iff.1 h]; rfl
  | succ n ih =>
    match B, h with
    | b0 :: b1 :: b2 :: b3 :: B, h =>
      have htail : B.length = 4 * n := by simpa [Nat.mul_succ] using h
      rw [List.range_succ_eq_map, List.map_cons, List.map_map, scheduleLoad, ih htail]
      rfl

/-! ### The expansion, in the order of the spec's indices -/

/-- Each expansion step adds one word. -/
theorem scheduleExpand_length (n : Nat) (l : List Word) : (scheduleExpand n l).length = l.length + n := by
  induction n generalizing l with
  | zero => rfl
  | succ n ih => rw [scheduleExpand, ih, List.length_cons, Nat.add_right_comm, Nat.add_assoc]

/-- The expansion leaves the earlier words as they are. -/
theorem scheduleExpand_getD_of_lt (n : Nat) {l : List Word} {i : Nat} (h : i < l.length) :
    (scheduleExpand n l).reverse.getD i 0 = l.reverse.getD i 0 := by
  induction n generalizing l with
  | zero => rfl
  | succ n ih =>
    rw [scheduleExpand, ih (l := nextWord l :: l) (Nat.lt_succ_of_lt h), List.reverse_cons,
      List.getD_append _ _ _ _ (by simpa using h)]

/-- The word at place `k` of the words latest first stands `k + 1` before the end of the words in order. -/
theorem getD_eq_reverse_getD {l : List Word} {k : Nat} (h : k < l.length) :
    l.getD k 0 = l.reverse.getD (l.length - (k + 1)) 0 := by
  rw [List.getD_reverse _ (by omega)]
  congr 1
  omega

/-- The next word by the spec's indices. -/
theorem nextWord_eq {l : List Word} (h : 16 ≤ l.length) :
    nextWord l = (l.reverse.getD (l.length - 3) 0 ^^^ l.reverse.getD (l.length - 8) 0 ^^^
      l.reverse.getD (l.length - 14) 0 ^^^ l.reverse.getD (l.length - 16) 0).rotateLeft 1 := by
  rw [nextWord, rotl_eq_rotateLeft _ (by decide), getD_eq_reverse_getD (k := 2) (by omega),
    getD_eq_reverse_getD (k := 7) (by omega), getD_eq_reverse_getD (k := 13) (by omega),
    getD_eq_reverse_getD (k := 15) (by omega)]

/-- The recurrence R59 of the words from place `lo` to before place `hi`. -/
def FollowsRecurrence (lo hi : Nat) (W : Nat → Word) : Prop :=
  ∀ i, lo ≤ i → i < hi → W i = (W (i - 3) ^^^ W (i - 8) ^^^ W (i - 14) ^^^ W (i - 16)).rotateLeft 1

/-- Every word the expansion adds follows the recurrence. -/
theorem scheduleExpand_followsRecurrence (n : Nat) {l : List Word} (h : 16 ≤ l.length) :
    FollowsRecurrence l.length (l.length + n) fun i => (scheduleExpand n l).reverse.getD i 0 := by
  induction n generalizing l with
  | zero => exact fun i hlo hhi => absurd hhi (Nat.not_lt.2 hlo)
  | succ n ih =>
    intro i hlo hhi
    rcases Nat.lt_or_eq_of_le hlo with hlt | rfl
    · exact ih (l := nextWord l :: l) (Nat.le_succ_of_le h) i hlt (by simp only [List.length_cons]; omega)
    · have hold : ∀ k, 1 ≤ k → k ≤ 16 → (scheduleExpand (n + 1) l).reverse.getD (l.length - k) 0 =
          l.reverse.getD (l.length - k) 0 := fun k _ _ => scheduleExpand_getD_of_lt _ (by omega)
      have hnew : (scheduleExpand (n + 1) l).reverse.getD l.length 0 = nextWord l := by
        rw [scheduleExpand, scheduleExpand_getD_of_lt n (l := nextWord l :: l) (Nat.lt_succ_self _), List.reverse_cons,
          List.getD_append_right _ _ _ _ (by simp)]
        simp
      simp only [hnew, hold 3 (by decide) (by decide), hold 8 (by decide) (by decide),
        hold 14 (by decide) (by decide), hold 16 (by decide) (by decide)]
      exact nextWord_eq h

/-! ### The schedule is the one sequence that its two rules allow -/

/-- The words are the schedule of the block: the load R58 and the recurrence R59. -/
def FollowsSchedule (B : List Byte) (W : Nat → Word) : Prop :=
  (∀ j, j < 16 → W j = blockWord B j) ∧ FollowsRecurrence 16 80 W

/-- Two sequences that follow the rules from one block agree on all 80 words. -/
theorem FollowsSchedule.unique {B : List Byte} {W W' : Nat → Word} (h : FollowsSchedule B W)
    (h' : FollowsSchedule B W') (i : Nat) (hi : i < 80) : W i = W' i := by
  obtain ⟨hload, hrec⟩ := h
  obtain ⟨hload', hrec'⟩ := h'
  induction i using Nat.strong_induction_on with
  | h i ih =>
    rcases Nat.lt_or_ge i 16 with hlt | hge
    · rw [hload i hlt, hload' i hlt]
    · rw [hrec i hge hi, hrec' i hge hi, ih (i - 3) (by omega) (by omega), ih (i - 8) (by omega) (by omega),
        ih (i - 14) (by omega) (by omega), ih (i - 16) (by omega) (by omega)]

section
variable {B : List Byte} (hB : B.length = 64)
include hB

/-- A block loads as 16 words. -/
theorem scheduleLoad_of_block : scheduleLoad B = (List.range 16).map (blockWord B) := scheduleLoad_eq_map 16 hB

/-- The schedule of a block has 80 words. -/
theorem schedule_length : (schedule B).length = 80 := by
  rw [schedule, List.length_reverse, scheduleExpand_length, List.length_reverse, scheduleLoad_of_block hB]
  simp

/-- Words 0 to 15 of the schedule are the block's words. -/
theorem schedule_getD_of_lt_16 {j : Nat} (hj : j < 16) : (schedule B).getD j 0 = blockWord B j := by
  rw [schedule, scheduleExpand_getD_of_lt _ (by simpa [scheduleLoad_of_block hB] using hj), List.reverse_reverse,
    scheduleLoad_of_block hB, List.getD_eq_getElem _ _ (by simpa using hj)]
  simp

/-- The model's schedule follows the rules. -/
theorem schedule_followsSchedule : FollowsSchedule B fun i => (schedule B).getD i 0 := by
  have hlen : (scheduleLoad B).reverse.length = 16 := by simp [scheduleLoad_of_block hB]
  have hrec := scheduleExpand_followsRecurrence (Config.schedWords - 16) hlen.ge
  rw [hlen] at hrec
  exact ⟨fun _ => schedule_getD_of_lt_16 hB, hrec⟩

end

/-- The all-zero words follow the rules from the all-zero block. -/
theorem followsSchedule_zeros : FollowsSchedule (List.replicate 64 0x00) fun _ => 0 :=
  ⟨by decide, fun _ _ _ => show (0 : Word) = (0 ^^^ 0 ^^^ 0 ^^^ 0 : Word).rotateLeft 1 by decide⟩

/-- Settles O12: the load and the recurrence for every block; the all-zero block by uniqueness. -/
theorem scheduleRule : Obligations.ScheduleRule := by
  refine ⟨fun B hB => ?rules, fun B hB hpre => ?abc, ?one, fun i hi => ?zeros⟩
  case rules =>
    refine ⟨schedule_length hB, fun j hj => ?_, (schedule_followsSchedule hB).2⟩
    rw [schedule_getD_of_lt_16 hB hj, blockWord_toNat]
  case abc =>
    have hB' : B = [0x61, 0x62, 0x63, 0x80] ++ B.drop 4 := by rw [← hpre, List.take_append_drop]
    rw [schedule_getD_of_lt_16 hB (by decide), hB']
    exact show be32 0x61 0x62 0x63 0x80 = 0x61626380 by decide
  case one =>
    have hB : (0x80 :: List.replicate 63 0x00 : List Byte).length = 64 := rfl
    refine ((schedule_followsSchedule hB).2 16 (by decide) (by decide)).trans ?_
    simp (disch := decide) only [Nat.reduceSub, schedule_getD_of_lt_16 hB]
    decide
  case zeros =>
    exact (schedule_followsSchedule List.length_replicate).unique followsSchedule_zeros i hi

/-! ### `COMPRESS` -/

/-- Registers that a round takes from each index to the next are, after one round per word, what `runRounds` answers. -/
theorem runRounds_eq {R : Nat → Working} (ws : List Word) (i : Nat)
    (h : ∀ j, j < ws.length → R (i + j + 1) = runRound (i + j) (R (i + j)) (ws.getD j 0)) :
    runRounds i ws (R i) = R (i + ws.length) := by
  induction ws generalizing i with
  | nil => rfl
  | cons w ws ih =>
    have hfirst : runRound i (R i) w = R (i + 1) := (h 0 (by simp)).symm
    rw [runRounds, hfirst, ih (i + 1) fun j hj => ?_, List.length_cons, Nat.add_right_comm, Nat.add_assoc]
    have hnext := h (j + 1) (by simpa using hj)
    rwa [List.getD_cons_succ, ← Nat.add_assoc, Nat.add_right_comm i j 1] at hnext

/-- Registers that start at the accumulator and follow the rounds with the schedule's words give `COMPRESS`. -/
theorem compress_eq_feedback {S : Accum} {B : List Byte} (hB : B.length = 64) {W : Nat → Word} {R : Nat → Working}
    (hW : FollowsSchedule B W) (hseed : R 0 = seed S)
    (hround : ∀ i, i < 80 → R (i + 1) = runRound i (R i) (W i)) :
    compress S B = feedback S (R 80) := by
  have hword : ∀ i, i < 80 → (schedule B).getD i 0 = W i := (schedule_followsSchedule hB).unique hW
  have hlen := schedule_length hB
  rw [compress, ← hseed, runRounds_eq (schedule B) 0 fun j hj => ?_, hlen]
  rw [hlen] at hj
  rw [Nat.zero_add, hround j hj, hword j hj]

/-- The registers of R62 as sequences over the round, put together at one round. -/
def workingAt (a b c d e : Nat → Word) (i : Nat) : Working := ⟨a i, b i, c i, d i, e i⟩

/-- Settles O13: the given words are the schedule, as it is unique, and the given registers are those of the 80 rounds. -/
theorem compressFollowsRule : Obligations.CompressFollowsRule := by
  intro S B hB W a b c d e hload hrec ha hb hc hd he hround
  have hW : FollowsSchedule B W :=
    ⟨fun j hj => BitVec.eq_of_toNat_eq ((hload j hj).trans (blockWord_toNat B j).symm), hrec⟩
  have hseed : workingAt a b c d e 0 = seed S := by rw [workingAt, ha, hb, hc, hd, he, seed]
  refine compress_eq_feedback hB hW hseed fun i hi => ?_
  obtain ⟨ha', hb', hc', hd', he'⟩ := hround i hi
  simp only [workingAt, runRound, rotl_eq_rotateLeft _ (show 5 < 32 by decide),
    rotl_eq_rotateLeft _ (show 30 < 32 by decide), ha', hb', hc', hd', he']

end Sys2Proof.Machine
end

section
/-! PROOFS. `INIT` leaves no trace of what was there before (41_absorb.md R71). -/

namespace Sys2Proof.Machine

/-- A second `INIT` is accepted, since the first leaves the engine in `ACTIVE`; the stage it sets is the one already there, so
only its response is new. -/
theorem exec_init_init {s t : State} (h : s.phase ≠ .fault) (ht : exec .init s = .next t) :
    exec .init t = .next (t.respond [statusOk]) := by
  rw [exec_init h] at ht
  cases ht
  have hactive : ((s.setStage (.active ⟨initialAccum, 0⟩)).respond [statusOk]).phase ≠ .fault := by simp
  rw [exec_init hactive]
  rfl

/-- Settles O18: outside `FAULT` the stage `INIT` sets is a constant, and a second `INIT` sets the same one; in `FAULT` no
command runs. -/
theorem initForgets : Obligations.InitForgets :=
  ⟨fun _ _ hs ht => ⟨_, _, exec_init hs, exec_init ht, rfl⟩,
    fun _ hs => ⟨_, exec_init hs, exec_init_init hs (exec_init hs)⟩,
    fun _ hs => exec_fault hs .init⟩

end Sys2Proof.Machine
end

section
/-! PROOFS. The zero count of the padded tail (42_finalize.md R80). -/

namespace Sys2Proof.Machine

/-- One block has room for the length field. -/
theorem zeroCount_of_le {n : Nat} (h : n ≤ 55) : zeroCount n = 55 - n := if_pos h

/-- The length field needs a second block. -/
theorem zeroCount_of_ge {n : Nat} (h : 56 ≤ n) : zeroCount n = 119 - n := if_neg (Nat.not_le.2 h)

/-- The two forms of the zero count are one, modulo a block. -/
theorem zeroCount_eq_emod {n : Nat} (h : n ≤ 63) : (zeroCount n : Int) = (55 - (n : Int)) % 64 := by
  rcases Nat.lt_or_ge n 56 with hn | hn
  · rw [zeroCount_of_le (Nat.le_of_lt_succ hn)]
    omega
  · rw [zeroCount_of_ge hn]
    omega

/-- A remainder modulo a block is less than a block. -/
theorem zeroCount_le {n : Nat} (h : n ≤ 63) : zeroCount n ≤ 63 := by
  have hz := zeroCount_eq_emod h
  omega

/-- Any padding that ends 8 bytes before a block boundary is congruent to the zero count, which is the remainder. -/
theorem zeroCount_least {n z' : Nat} (h : n ≤ 63) (h' : (n + 1 + z') % 64 = 56) : zeroCount n ≤ z' := by
  have hz := zeroCount_eq_emod h
  have hmod : (z' : Int) % 64 = (55 - (n : Int)) % 64 := by omega
  omega

/-- No zero byte at all only where payload and `0x80` end at the length field. -/
theorem zeroCount_eq_zero_iff {n : Nat} (h : n ≤ 63) : zeroCount n = 0 ↔ n = 55 := by
  have hz := zeroCount_eq_emod h
  omega

/-- The longest padding is that of the shortest payload with a second block. -/
theorem zeroCount_eq_63_iff {n : Nat} (h : n ≤ 63) : zeroCount n = 63 ↔ n = 56 := by
  have hz := zeroCount_eq_emod h
  omega

/-- Settles O14: the count in question is `zeroCount`, which is a remainder modulo a block. -/
theorem paddedTailRule : Obligations.PaddedTailRule := fun p L hp =>
  ⟨zeroCount p.length, rfl, zeroCount_of_le, zeroCount_of_ge, zeroCount_eq_emod hp, zeroCount_le hp,
    fun _ => zeroCount_least hp, zeroCount_eq_zero_iff hp, zeroCount_eq_63_iff hp, fun h => by rw [h]; rfl,
    be64Bytes_length L, rfl⟩

end Sys2Proof.Machine
end

section
/-! PROOFS. What a step from `FROZEN` does to the frozen digest (42_finalize.md R85). -/

namespace Sys2Proof.Machine

/-- What became of the frozen digest `d`, each outcome with the front of the command stream that leads to it. -/
inductive FrozenCase (d : DigestState) (s t : State) : Prop where
  | waits (h : decode s.cmd = .incomplete) (ht : t = s)
  | overwritten (rest : List Byte) (h : decode s.cmd = .packet .init rest) (ht : t.stage = .active ⟨initialAccum, 0⟩)
  | handedOut (rest : List Byte) (h : decode s.cmd = .packet .extract rest) (ht : t.stage = .idle)
      (hr : t.resp = s.resp ++ 0x00 :: digestBytes d.acc)
  | faulted (h : decode s.cmd ≠ .incomplete) (ht : t.stage = .fault)

/-- A command executed in `FROZEN` overwrites the digest, hands it out or faults: it is never kept. -/
theorem execCase_frozen {i : Instr} {s t : State} {d : DigestState} {rest : List Byte} (hs : s.stage = .frozen d)
    (hd : decode s.cmd = .packet i rest) (hc : ExecCase i (s.setCmd rest) t) : FrozenCase d s t := by
  cases hc with
  | discarded h => simp [phase_def, hs] at h
  | faulted c => exact .faulted (by simp [hd]) rfl
  | init e => exact .overwritten rest (e ▸ hd) rfl
  | block p d' e hp ha => simp [hs] at ha
  | final p d' e hp ha => simp [hs] at ha
  | extract d' e hz =>
    obtain rfl : d = d' := by simpa [hs] using hz
    exact .handedOut rest (e ▸ hd) rfl rfl

/-- Only a step that waits keeps the frozen digest. -/
theorem step_frozen {s t : State} {d : DigestState} (hs : s.stage = .frozen d) (h : step s = .next t) :
    FrozenCase d s t := by
  cases step_inv h with
  | discard hf => simp [phase_def, hs] at hf
  | wait _ hd => exact .waits hd rfl
  | reserved rest _ hd => exact .faulted (by simp [hd]) rfl
  | illegal rest _ hd => exact .faulted (by simp [hd]) rfl
  | run i rest _ _ hd hc => exact execCase_frozen hs hd hc

/-- Settles O24, from what a step in `FROZEN` does and from the response of an accepted `EXTRACT`. -/
theorem frozenResult : Obligations.FrozenResult := by
  refine ⟨fun s t d hs h => ?_, fun s t p d _ _ ht => ⟨_, exec_extract_frozen ht, rfl⟩⟩
  cases step_frozen hs h with
  | waits _ ht => exact .inl (ht ▸ hs)
  | overwritten _ _ ht => exact .inr (.inl ht)
  | handedOut _ _ ht => exact .inr (.inr (.inl ht))
  | faulted _ ht => exact .inr (.inr (.inr ht))

end Sys2Proof.Machine
end

section
/-! PROOFS. The hex form of a digest (43_digest_driver.md R95). -/

namespace Sys2Proof.Machine

/-- The digit of a nibble stands at the nibble's place among the sixteen digits. -/
theorem hexDigits_getElem? (n : BitVec 4) : "0123456789abcdef".toList[n.toNat]? = some (hexDigit n) := by
  decide +revert

/-- The digit of the high nibble. -/
theorem hexDigits_getElem?_high (b : Byte) :
    "0123456789abcdef".toList[b.toNat / 16]? = some (hexDigit (b.extractLsb' 4 4)) := by
  have hnibble : (b.extractLsb' 4 4).toNat = b.toNat / 16 := by
    rw [BitVec.extractLsb'_toNat, Nat.shiftRight_eq_div_pow]
    omega
  rw [← hnibble, hexDigits_getElem?]

/-- The digit of the low nibble. -/
theorem hexDigits_getElem?_low (b : Byte) :
    "0123456789abcdef".toList[b.toNat % 16]? = some (hexDigit (b.extractLsb' 0 4)) := by
  have hnibble : (b.extractLsb' 0 4).toNat = b.toNat % 16 := by
    rw [BitVec.extractLsb'_toNat, Nat.shiftRight_zero]
  rw [← hnibble, hexDigits_getElem?]

@[simp] theorem hexForm_nil : hexForm [] = [] := rfl

@[simp] theorem hexForm_cons (b : Byte) (d : List Byte) :
    hexForm (b :: d) = hexDigit (b.extractLsb' 4 4) :: hexDigit (b.extractLsb' 0 4) :: hexForm d := rfl

/-- Two characters for every byte. -/
theorem hexForm_length (d : List Byte) : (hexForm d).length = 2 * d.length := by
  induction d with
  | nil => rfl
  | cons b d ih => simp only [hexForm_cons, List.length_cons, ih]; omega

/-- Every character of a hex form is the digit of a nibble. -/
theorem exists_hexDigit_of_mem_hexForm {d : List Byte} {c : Char} (h : c ∈ hexForm d) : ∃ n, c = hexDigit n := by
  obtain ⟨b, _, hc⟩ := List.mem_flatMap.1 h
  rcases List.mem_pair.1 hc with rfl | rfl
  · exact ⟨_, rfl⟩
  · exact ⟨_, rfl⟩

/-- Characters `2 i` and `2 i + 1` are the digits of the nibbles of byte `i`. -/
theorem hexForm_getElem? {d : List Byte} {i : Nat} {b : Byte} (h : d[i]? = some b) :
    (hexForm d)[2 * i]? = some (hexDigit (b.extractLsb' 4 4)) ∧
      (hexForm d)[2 * i + 1]? = some (hexDigit (b.extractLsb' 0 4)) := by
  induction d generalizing i with
  | nil => cases h
  | cons b' d ih =>
    cases i with
    | zero =>
      cases h
      exact ⟨rfl, rfl⟩
    | succ i => exact ih h

/-- Settles O57, byte by byte: the sixteen digits at the places of the byte's two nibbles. -/
theorem hexFormRule : Obligations.HexFormRule := by
  refine fun d hd => ⟨by rw [hexForm_length, hd], fun c hc => ?_, fun i b hb => ?_⟩
  · obtain ⟨n, rfl⟩ := exists_hexDigit_of_mem_hexForm hc
    exact List.mem_of_getElem? (hexDigits_getElem? n)
  · rw [hexDigits_getElem?_high, hexDigits_getElem?_low]
    exact hexForm_getElem? hb

end Sys2Proof.Machine
end

section
/-! PROOFS. `DIGEST` over a source whose reads do not fail issues the commands of the message the source delivers, however
it splits its reads (43_digest_driver.md R92, R97, R99). -/

namespace Sys2Proof.Machine

/-! ### The message and its commands, block by block -/

/-- The message a source delivers within a limit: its first `min(limit, T)` bytes (43_digest_driver.md R97). -/
def Source.message (src : Source) (limit : Option Nat) : List Byte :=
  match limit with
  | none => src.rest
  | some n => src.rest.take n

theorem Source.message_length (src : Source) (limit : Option Nat) :
    (src.message limit).length =
      match limit with | none => src.rest.length | some n => min n src.rest.length := by
  cases limit with
  | none => rfl
  | some n => exact List.length_take

/-- A message is no longer than what its source has left. -/
theorem Source.message_length_le (src : Source) (limit : Option Nat) :
    (src.message limit).length ≤ src.rest.length := by
  cases limit with
  | none => exact Nat.le_refl _
  | some n => exact List.length_take_le' _ _

theorem fullBlocks_length (m : List Byte) : (fullBlocks m).length = m.length / 64 := by simp [fullBlocks]

/-- The payload of `FINAL` for a message: the bytes after its full blocks (43_digest_driver.md R93). -/
def lastPayload (m : List Byte) : List Byte := m.drop (64 * (m.length / 64))

theorem lastPayload_length (m : List Byte) : (lastPayload m).length = m.length % 64 := by
  rw [lastPayload, List.length_drop]
  omega

/-- The commands after `INIT` for a message (43_digest_driver.md R93). -/
def absorbCommands (m : List Byte) : List Instr :=
  (fullBlocks m).map .block ++ [.final (lastPayload m), .extract]

theorem digestCommands_eq (m : List Byte) : digestCommands m = .init :: absorbCommands m := rfl

/-- A message shorter than a block has no full block. -/
theorem fullBlocks_of_lt {m : List Byte} (h : m.length < 64) : fullBlocks m = [] := by
  rw [fullBlocks, Config.blockBytes, Nat.div_eq_of_lt h]
  rfl

/-- The first full block is the first 64 bytes. -/
theorem fullBlocks_of_le {m : List Byte} (h : 64 ≤ m.length) :
    fullBlocks m = m.take 64 :: fullBlocks (m.drop 64) := by
  have hcount : m.length / 64 = (m.length - 64) / 64 + 1 := by omega
  rw [fullBlocks, fullBlocks, Config.blockBytes, List.length_drop, hcount, List.range_succ_eq_map, List.map_cons,
    List.map_map]
  refine congrArg _ (List.map_congr_left fun k _ => ?_)
  rw [Function.comp_apply, blockAt, blockAt, List.drop_drop, Nat.mul_succ, Nat.add_comm]

/-- A message shorter than a block is all payload of `FINAL`. -/
theorem absorbCommands_of_lt {m : List Byte} (h : m.length < 64) : absorbCommands m = [.final m, .extract] := by
  rw [absorbCommands, lastPayload, fullBlocks_of_lt h, Nat.div_eq_of_lt h]
  rfl

/-- A longer message begins with a `BLOCK`. -/
theorem absorbCommands_of_le {m : List Byte} (h : 64 ≤ m.length) :
    absorbCommands m = .block (m.take 64) :: absorbCommands (m.drop 64) := by
  have hlast : 64 * (m.length / 64) = 64 + 64 * ((m.length - 64) / 64) := by omega
  rw [absorbCommands, absorbCommands, lastPayload, lastPayload, fullBlocks_of_le h, List.drop_drop, List.length_drop,
    ← hlast]
  rfl

/-- One command for each full block, and `INIT`, `FINAL` and `EXTRACT` (43_digest_driver.md R99). -/
theorem digestCommands_length (m : List Byte) : (digestCommands m).length = m.length / 64 + 3 := by
  simp [digestCommands_eq, absorbCommands, fullBlocks_length]

/-! ### One read -/

/-- A source that is asked for a byte and has one delivers one (43_digest_driver.md R90). -/
theorem left_eq_zero_of_deliverCount {wish n left : Nat} (hn : 0 < n) (h : deliverCount wish n left = 0) : left = 0 := by
  rw [deliverCount] at h
  omega

/-- A read that does not fail delivers the front of what is left: at least one byte while there is one and one is asked for,
and no more than asked for (43_digest_driver.md R90). -/
theorem Source.read_of_no_ioError {src : Source} (h : ReadChoice.ioError ∉ src.script) (n : Nat) :
    ∃ k script, src.read n = (.bytes (src.rest.take k), ⟨src.rest.drop k, script⟩) ∧ ReadChoice.ioError ∉ script ∧
      k ≤ n ∧ k ≤ src.rest.length ∧ (0 < n → k = 0 → src.rest = []) := by
  obtain ⟨rest, script⟩ := src
  cases script with
  | nil =>
    refine ⟨_, _, rfl, h, Nat.min_le_left _ _, Nat.min_le_right _ _, fun hn hk => List.eq_nil_of_length_eq_zero ?_⟩
    omega
  | cons choice script =>
    obtain ⟨hhead, htail⟩ := not_or.1 (mt List.mem_cons.2 h)
    cases choice with
    | ioError => exact absurd rfl hhead
    | count wish =>
      have hcount : deliverCount wish n rest.length ≤ min n rest.length := Nat.min_le_right _ _
      exact ⟨_, script, rfl, htail, hcount.trans (Nat.min_le_left _ _), hcount.trans (Nat.min_le_right _ _),
        fun hn hk => List.eq_nil_of_length_eq_zero (left_eq_zero_of_deliverCount hn hk)⟩

/-- The read of the inner loop takes the front of the message and leaves the rest of it, within the rest of the limit. -/
theorem Source.read_message {src : Source} {limit : Option Nat} {gathered : Nat}
    (h : ReadChoice.ioError ∉ src.script) (hg : gathered < 64) (hl : limit ≠ some 0) :
    ∃ k src', src.read (askFor gathered limit) = (.bytes ((src.message limit).take k), src') ∧
      ReadChoice.ioError ∉ src'.script ∧ gathered + k ≤ 64 ∧ k ≤ (src.message limit).length ∧
      (k = 0 → src.message limit = []) ∧ src'.message (limit.map (· - k)) = (src.message limit).drop k := by
  obtain ⟨k, script, hread, hscript, hask, hleft, hzero⟩ := Source.read_of_no_ioError h (askFor gathered limit)
  cases limit with
  | none =>
    simp only [askFor, Config.blockBytes_eq] at hask hzero
    exact ⟨k, _, hread, hscript, by omega, hleft, hzero (by omega), rfl⟩
  | some n =>
    have hn : n ≠ 0 := fun e => hl (congrArg some e)
    simp only [askFor, Config.blockBytes_eq] at hask hzero
    have htake : (src.rest.take n).take k = src.rest.take k := by rw [List.take_take, Nat.min_eq_left (by omega)]
    refine ⟨k, ⟨src.rest.drop k, script⟩, ?_, hscript, by omega, ?_, fun hk => ?_, List.drop_take.symm⟩
    · rw [hread, message, htake]
    · rw [message, List.length_take]; omega
    · rw [message, hzero (by omega) hk, List.take_nil]

/-! ### The two loops -/

/-- A turn of the inner loop whose read does not fail. -/
theorem gatherChunk_of_read {src src' : Source} {limit : Option Nat} {chunk g : List Byte}
    (hc : chunk.length < 64) (hl : limit ≠ some 0)
    (hread : src.read (askFor chunk.length limit) = (.bytes g, src')) (turns : Nat) :
    gatherChunk (turns + 1) src limit chunk =
      if g = [] then .chunk chunk src' limit
      else gatherChunk turns src' (limit.map (· - g.length)) (chunk ++ g) := by
  rw [gatherChunk, if_pos ⟨hc, hl⟩, hread]

/-- The inner loop stops at a full chunk or at the limit. -/
theorem gatherChunk_of_stop {limit : Option Nat} {chunk : List Byte} (h : 64 ≤ chunk.length ∨ limit = some 0)
    (turns : Nat) (src : Source) : gatherChunk turns src limit chunk = .chunk chunk src limit := by
  cases turns with
  | zero => rfl
  | succ turns =>
    rw [gatherChunk, if_neg]
    rintro ⟨hc, hl⟩
    exact h.elim (Nat.not_le.2 hc) hl

/-- The inner loop fills the chunk from the front of the message (43_digest_driver.md R92): as many turns as bytes are missing
are enough, each but the last gathering a byte. -/
theorem gatherChunk_message (turns : Nat) {src : Source} {limit : Option Nat} {chunk : List Byte}
    (h : ReadChoice.ioError ∉ src.script) (hc : chunk.length ≤ 64) (ht : 64 ≤ chunk.length + turns) :
    ∃ src' limit', gatherChunk turns src limit chunk =
        .chunk (chunk ++ (src.message limit).take (64 - chunk.length)) src' limit' ∧
      ReadChoice.ioError ∉ src'.script ∧ src'.message limit' = (src.message limit).drop (64 - chunk.length) := by
  induction turns generalizing src limit chunk with
  | zero =>
    have hfull : chunk.length = 64 := by omega
    exact ⟨src, limit, by simp [gatherChunk_of_stop (.inl hfull.ge), hfull], h, by simp [hfull]⟩
  | succ turns ih =>
    by_cases hfull : chunk.length = 64
    · exact ⟨src, limit, by simp [gatherChunk_of_stop (.inl hfull.ge), hfull], h, by simp [hfull]⟩
    by_cases hl : limit = some 0
    · have hend : src.message limit = [] := by rw [hl, Source.message, List.take_zero]
      exact ⟨src, limit, by simp [gatherChunk_of_stop (.inr hl), hend], h, by simp [hend]⟩
    have hroom : chunk.length < 64 := by omega
    obtain ⟨k, src', hread, hscript, hk, hlen, hzero, hrest⟩ := Source.read_message h hroom hl
    have hgot : ((src.message limit).take k).length = k := List.length_take_of_le hlen
    rw [gatherChunk_of_read hroom hl hread, hgot]
    rcases Nat.eq_zero_or_pos k with rfl | hpos
    · have hend : src.message limit = [] := hzero rfl
      exact ⟨src', limit, by simp [hend], hscript, by simpa [hend] using hrest⟩
    · have hne : (src.message limit).take k ≠ [] := List.ne_nil_of_length_pos (hpos.trans_eq hgot.symm)
      have hlonger : (chunk ++ (src.message limit).take k).length = chunk.length + k := by rw [List.length_append, hgot]
      have hmissing : 64 - chunk.length = k + (64 - (chunk.length + k)) := by omega
      obtain ⟨src'', limit'', hchunk, hscript', hrest'⟩ :=
        ih (src := src') (limit := limit.map (· - k)) (chunk := chunk ++ (src.message limit).take k) hscript
          (by omega) (by omega)
      refine ⟨src'', limit'', ?_, hscript', ?_⟩
      · rw [if_neg hne, hchunk, hlonger, hrest, List.append_assoc, ← List.take_add, ← hmissing]
      · rw [hrest', hlonger, hrest, List.drop_drop, ← hmissing]

/-- The outer loop issues the commands of the message, given a turn for each full block and one for the rest
(43_digest_driver.md R92, R93). -/
theorem digestLoop_message (turns : Nat) {src : Source} {limit : Option Nat} (h : ReadChoice.ioError ∉ src.script)
    (ht : (src.message limit).length / 64 < turns) :
    digestLoop turns src limit = ⟨absorbCommands (src.message limit), false⟩ := by
  induction turns generalizing src limit with
  | zero => exact absurd ht (Nat.not_lt_zero _)
  | succ turns ih =>
    obtain ⟨src', limit', hchunk, hscript, hrest⟩ := gatherChunk_message 64 (limit := limit) (chunk := []) h
      (by decide) (by decide)
    simp only [List.nil_append, List.length_nil, Nat.sub_zero] at hchunk hrest
    rw [digestLoop, Config.blockBytes, hchunk]
    rcases Nat.lt_or_ge (src.message limit).length 64 with hlt | hge
    · simp [List.take_of_length_le hlt.le, hlt.ne, absorbCommands_of_lt hlt]
    · have hlater : digestLoop turns src' limit' = ⟨absorbCommands ((src.message limit).drop 64), false⟩ := by
        rw [← hrest]
        refine ih hscript ?_
        rw [hrest, List.length_drop]
        omega
      simp [List.length_take_of_le hge, hlater, absorbCommands_of_le hge]

/-- Without a failing read `DIGEST` issues the commands of the message and stops. -/
theorem digestPlan_message {src : Source} (h : ReadChoice.ioError ∉ src.script) (limit : Option Nat) :
    digestPlan src limit = ⟨digestCommands (src.message limit), false⟩ := by
  have hturns : (src.message limit).length / 64 < src.rest.length / 64 + 1 :=
    Nat.lt_succ_of_le (Nat.div_le_div_right (src.message_length_le limit))
  rw [digestPlan, Config.blockBytes, digestLoop_message _ h hturns, digestCommands_eq]

/-- The plan of an in-memory message. -/
theorem digestPlan_ofBytes (m : List Byte) : digestPlan (Source.ofBytes m) none = ⟨digestCommands m, false⟩ :=
  digestPlan_message List.not_mem_nil none

/-- A run of `DIGEST` depends on its source and limit through the plan alone. -/
theorem runDigest_congr {src src' : Source} {limit limit' : Option Nat} (h : digestPlan src limit = digestPlan src' limit')
    (s : State) : runDigest src limit s = runDigest src' limit' s := by
  rw [runDigest, runDigest, h]

/-- Without a failing read `DIGEST` runs as over the message in memory. -/
theorem runDigest_message {src : Source} (h : ReadChoice.ioError ∉ src.script) (limit : Option Nat) (s : State) :
    runDigest src limit s = runDigest (Source.ofBytes (src.message limit)) none s :=
  runDigest_congr ((digestPlan_message h limit).trans (digestPlan_ofBytes _).symm) s

/-- Settles O47: both plans are the commands of the message the source delivers. -/
theorem streamingEquivalence : Obligations.StreamingEquivalence := by
  intro src limit m h hm
  obtain rfl : m = src.message limit := hm
  exact ⟨digestPlan_message h limit, runDigest_message h limit⟩

/-- Settles O48: the commands of the message are counted. -/
theorem digestTerminates : Obligations.DigestTerminates := by
  intro src limit h
  rw [digestPlan_message h limit, digestCommands_length, Source.message_length]
  exact ⟨rfl, rfl⟩

end Sys2Proof.Machine
end

section
/-! PROOFS. `DIGEST` on an engine outside `FAULT` with no packet pending: its commands are all accepted, and the digest is a
function of the message (43_digest_driver.md R93, R96, R101). -/

namespace Sys2Proof.Machine

/-! ### `FINAL` and `EXTRACT`, issued -/

/-- A `FINAL` with room in the count, issued in `ACTIVE` with no packet pending. -/
theorem issue_final {s : State} {d : DigestState} {p : List Byte} (hs : s.stage = .active d) (hc : s.cmd = [])
    (hp : p.length ≤ 63) (hr : d.bitlen.toNat + 8 * p.length ≤ 2 ^ 64 - 1) :
    ∃ t, issue (.final p) s = .next ([statusOk], t) ∧
      t.stage = .frozen ⟨foldTailAccum d.acc (paddedTail p (d.bitlen + payloadBits (Instr.final p).len)),
        d.bitlen + payloadBits (Instr.final p).len⟩ ∧ t.cmd = [] ∧ t.errcode = s.errcode := by
  have hw : (Instr.final p).wellFormed = true := decide_eq_true hp
  have hf : s.phase ≠ .fault := by simp [phase_def, hs]
  exact ⟨_, issue_of_exec hw hf hc (exec_final_active hs hp hr) (by simp), by simp, by simp [hc], by simp⟩

/-- An `EXTRACT`, issued in `FROZEN` with no packet pending. -/
theorem issue_extract {s : State} {d : DigestState} (hs : s.stage = .frozen d) (hc : s.cmd = []) :
    ∃ t, issue .extract s = .next (statusOk :: digestBytes d.acc, t) ∧ t.stage = .idle ∧ t.cmd = [] ∧
      t.errcode = s.errcode := by
  have hf : s.phase ≠ .fault := by simp [phase_def, hs]
  exact ⟨_, issue_of_exec rfl hf hc (exec_extract_frozen hs) (by simp), by simp, by simp [hc], by simp⟩

theorem issueAll_nil (s : State) : issueAll [] s = .next ([], s) := rfl

/-- What issuing a command and then others has done, from its outcome. -/
theorem issueAll_cons_inv {i : Instr} {is : List Instr} {s u : State} {rs : List (List Byte)}
    (h : issueAll (i :: is) s = .next (rs, u)) :
    ∃ r t qs, issue i s = .next (r, t) ∧ issueAll is t = .next (qs, u) ∧ rs = r :: qs := by
  rw [issueAll] at h
  split at h
  case h_1 r t hissue =>
    split at h
    case h_1 qs v hall =>
      cases h
      exact ⟨r, t, qs, hissue, hall, rfl⟩
    all_goals cases h
  all_goals cases h

/-- Issuing some commands and then others. -/
theorem issueAll_append {is js : List Instr} {s t u : State} {rs qs : List (List Byte)}
    (h : issueAll is s = .next (rs, t)) (hs : issueAll js t = .next (qs, u)) :
    issueAll (is ++ js) s = .next (rs ++ qs, u) := by
  induction is generalizing s rs with
  | nil =>
    cases h
    exact hs
  | cons i is ih =>
    obtain ⟨r, v, rs', hissue, hall, rfl⟩ := issueAll_cons_inv h
    exact issueAll_cons hissue (ih hall)

/-! ### The count after the payload of `FINAL` -/

/-- The bits of a payload of `FINAL`, with no carry lost (42_finalize.md R79). -/
theorem payloadBits_final {p : List Byte} (hp : p.length ≤ 63) :
    (payloadBits (Instr.final p).len).toNat = 8 * p.length := by
  have hw : (Instr.final p).wellFormed = true := decide_eq_true hp
  have hlen : (Instr.final p).len.toNat = p.length := len_toNat hw
  rw [payloadBits, BitVec.toNat_mul, BitVec.toNat_setWidth, hlen, Nat.mod_eq_of_lt (a := p.length) (by omega)]
  exact Nat.mod_eq_of_lt (show 8 * p.length < 2 ^ 64 by omega)

/-- The count after the full blocks and the last payload is the bit length of the message. -/
theorem count_add_payloadBits {m : List Byte} {L : Count} (h : L.toNat = 512 * (m.length / 64)) :
    L + payloadBits (Instr.final (lastPayload m)).len = BitVec.ofNat 64 (8 * m.length) := by
  apply BitVec.eq_of_toNat_eq
  have hp : (lastPayload m).length ≤ 63 := by rw [lastPayload_length]; omega
  rw [BitVec.toNat_add, payloadBits_final hp, h, lastPayload_length, BitVec.toNat_ofNat]
  congr 1
  omega

/-! ### The run -/

/-- The accumulator frozen for a message: its full blocks, then the padded tail of its last payload, folded into the initial
constants (41_absorb.md R72, 42_finalize.md R82). -/
def frozenAccum (m : List Byte) : Accum :=
  foldTailAccum ((fullBlocks m).foldl compress initialAccum)
    (paddedTail (lastPayload m) (BitVec.ofNat 64 (8 * m.length)))

/-- The full blocks have 64 bytes each. -/
theorem length_of_mem_fullBlocks {m B : List Byte} (h : B ∈ fullBlocks m) : B.length = 64 := by
  obtain ⟨k, hk, rfl⟩ := List.mem_map.1 h
  have hk' : k < m.length / 64 := List.mem_range.1 hk
  rw [blockAt, List.length_take, List.length_drop, Config.blockBytes]
  omega

/-- The commands of a message within `MAX_MSG_BITS`, issued outside `FAULT` with no packet pending, are all answered `00`, the
last one with the digest. -/
theorem issueAll_digestCommands {m : List Byte} {s : State} (hf : s.phase ≠ .fault) (hc : s.cmd = [])
    (hm : 8 * m.length ≤ 2 ^ 64 - 1) :
    ∃ t, issueAll (digestCommands m) s = .next (List.replicate (m.length / 64 + 2) [statusOk] ++
        [statusOk :: digestBytes (frozenAccum m)], t) ∧ t.stage = .idle ∧ t.cmd = [] ∧ t.errcode = s.errcode := by
  obtain ⟨rs, active, L, hblocks, hL, hs1, rfl, hc1, he1⟩ := stateAfterBlocks s (fullBlocks m) hf hc
    (fun _ => length_of_mem_fullBlocks) (by rw [fullBlocks_length]; omega)
  have hp : (lastPayload m).length ≤ 63 := by rw [lastPayload_length]; omega
  rw [fullBlocks_length] at hL
  obtain ⟨frozen, hfinal, hs2, hc2, he2⟩ := issue_final hs1 hc1 hp (by rw [hL, lastPayload_length]; omega)
  rw [count_add_payloadBits hL] at hs2
  obtain ⟨idle, hextract, hs3, hc3, he3⟩ := issue_extract hs2 hc2
  have htail : issueAll [.final (lastPayload m), .extract] active =
      .next ([[statusOk], statusOk :: digestBytes (frozenAccum m)], idle) :=
    issueAll_cons hfinal (issueAll_cons hextract (issueAll_nil idle))
  refine ⟨idle, ?_, hs3, hc3, he3.trans (he2.trans he1)⟩
  rw [List.replicate_succ', List.append_assoc, ← fullBlocks_length]
  exact issueAll_append hblocks htail

/-- Responses that all begin with `00`, the last one with a digest behind it, are read as that digest. -/
theorem digestResult_of_accepted (n : Nat) {d : List Byte} (hd : d.length = 20) :
    digestResult false (List.replicate n [statusOk] ++ [statusOk :: d]) = .digest d := by
  simp [digestResult, digestOfResponse, hd]

/-- `DIGEST` over a message in memory answers the digest bytes of its frozen accumulator and leaves the engine in `IDLE`. -/
theorem runDigest_ofBytes {m : List Byte} {s : State} (hf : s.phase ≠ .fault) (hc : s.cmd = [])
    (hm : 8 * m.length ≤ 2 ^ 64 - 1) :
    ∃ t, runDigest (Source.ofBytes m) none s = .next (.digest (digestBytes (frozenAccum m)), t) ∧ t.stage = .idle ∧
      t.cmd = [] ∧ t.errcode = s.errcode := by
  obtain ⟨t, hall, ht⟩ := issueAll_digestCommands hf hc hm
  exact ⟨t, by simp only [runDigest, digestPlan_ofBytes, hall, digestResult_of_accepted _ (digestBytes_length _)], ht⟩

/-- Settles O49: both runs answer the digest of the message in memory. -/
theorem digestIsPure : Obligations.DigestIsPure := by
  intro src src' limit limit' m s s' h h' hm hm' hf hf' hc hc' hlen
  obtain ⟨t, ht, _⟩ := runDigest_ofBytes hf hc hlen
  obtain ⟨t', ht', _⟩ := runDigest_ofBytes hf' hc' hlen
  refine ⟨digestBytes (frozenAccum m), t, t', digestBytes_length _, ?_, ?_⟩
  · rw [runDigest_message h, show src.message limit = m from hm.symm, ht]
  · rw [runDigest_message h', show src'.message limit' = m from hm'.symm, ht']

end Sys2Proof.Machine
end

section
/-! PROOFS. The faults of a command: `E_PHASE` out of phase (60_exceptions.md R108), `E_OVERFLOW` at the bound of the count
(R110), and the one way out of `FAULT` (R114). -/

namespace Sys2Proof.Machine

/-! ### `E_PHASE` -/

/-- Settles O29: the pairs named are those the phase table does not list, and `INIT` is listed in every phase but `FAULT`. -/
theorem outOfPhaseFaults : Obligations.OutOfPhaseFaults := by
  refine ⟨fun s i p hw hi hs => ?_, fun s hs => ?_, fun s hs => ⟨_, exec_init hs, by simp⟩⟩
  · have hf : s.phase ≠ .fault := by rcases hs with h | h <;> simp [h]
    have ha : s.phase ≠ .active := by rcases hs with h | h <;> simp [h]
    rcases hi with rfl | rfl
    · exact exec_unlisted hw hf ((phaseTable_block s.phase).trans (if_neg ha))
    · exact exec_unlisted hw hf ((phaseTable_final s.phase).trans (if_neg ha))
  · have hf : s.phase ≠ .fault := by rcases hs with h | h <;> simp [h]
    have hz : s.phase ≠ .frozen := by rcases hs with h | h <;> simp [h]
    exact exec_unlisted rfl hf ((phaseTable_extract s.phase).trans (if_neg hz))

/-! ### `E_OVERFLOW` -/

/-- In front of an effect that does not lead to `FAULT`, the overflow check faults exactly where the sum passes the bound. -/
theorem requireRoom_eq_overflow_iff {d : DigestState} {bits : Nat} {s t : State} (ht : t.phase ≠ .fault) :
    requireRoom d bits s (.next t) = .next (takeFault .overflow s) ↔ d.bitlen.toNat + bits > 2 ^ 64 - 1 := by
  rw [requireRoom_eq]
  split
  case isTrue hroom =>
    have hne : t ≠ takeFault .overflow s := fun e => ht (by rw [e, phase_takeFault])
    simpa [hne] using hroom
  case isFalse hfull => simpa using hfull

/-- `BLOCK` in `ACTIVE` overflows exactly where the count has no room for a block. -/
theorem exec_block_eq_overflow_iff {s : State} {d : DigestState} {p : List Byte} (hs : s.stage = .active d)
    (hp : p.length = 64) :
    exec (.block p) s = .next (takeFault .overflow s) ↔ d.bitlen.toNat + 512 > 2 ^ 64 - 1 := by
  rw [exec_block (by simp [phase_def, hs]) hp, requireActive_active hs, absorbBlock_ok hp]
  exact requireRoom_eq_overflow_iff (by simp)

/-- `FINAL` in `ACTIVE` overflows exactly where the count has no room for its payload. -/
theorem exec_final_eq_overflow_iff {s : State} {d : DigestState} {p : List Byte} (hs : s.stage = .active d)
    (hp : p.length ≤ 63) :
    exec (.final p) s = .next (takeFault .overflow s) ↔ d.bitlen.toNat + 8 * p.length > 2 ^ 64 - 1 := by
  rw [exec_final (by simp [phase_def, hs]) hp, requireActive_active hs, finishDigest_ok hp]
  exact requireRoom_eq_overflow_iff (by simp)

/-- After `k` blocks there is no room for one more exactly if it is the `2^55`-th: a 64-bit count has `k < 2^55`. -/
theorem no_room_for_block_iff {n : Count} {k : Nat} (h : n.toNat = 512 * k) :
    n.toNat + 512 > 2 ^ 64 - 1 ↔ k + 1 = 2 ^ 55 := by
  have hlt := n.isLt
  omega

/-- The largest multiple of 512 below `2^64` leaves 511 bits, and a payload of `FINAL` has at most 504. -/
theorem room_for_payload_of_multiple {n : Count} {len : Nat} (h : n.toNat % 512 = 0) (hlen : len ≤ 63) :
    n.toNat + 8 * len ≤ 2 ^ 64 - 1 := by
  have hlt := n.isLt
  omega

/-- A count with room for a payload of `FINAL` grows by the payload's bits. -/
theorem toNat_add_payloadBits {n : Count} {p : List Byte} (hp : p.length ≤ 63)
    (hr : n.toNat + 8 * p.length ≤ 2 ^ 64 - 1) :
    (n + payloadBits (Instr.final p).len).toNat = n.toNat + 8 * p.length := by
  rw [BitVec.toNat_add, payloadBits_final hp]
  exact Nat.mod_eq_of_lt (Nat.lt_of_le_pred (by decide) hr)

/-- No command but `INIT` lowers the count: it never wraps. -/
theorem bitlen_le_of_exec {i : Instr} {s t : State} {d d' : DigestState} (hs : s.stage = .active d) (hi : i ≠ .init)
    (h : exec i s = .next t) (ht : t.stage.digestState = some d') : d.bitlen.toNat ≤ d'.bitlen.toNat := by
  cases exec_inv h with
  | discarded hf => simp [phase_def, hs] at hf
  | faulted c => simp [Stage.digestState] at ht
  | init e => exact absurd e hi
  | block p e _ hp he hr =>
    obtain rfl : d = e := by simpa [hs] using he
    cases ht
    rw [toNat_add_512 hr]
    exact Nat.le_add_right _ _
  | final p e _ hp he hr =>
    obtain rfl : d = e := by simpa [hs] using he
    cases ht
    rw [toNat_add_payloadBits hp hr]
    exact Nat.le_add_right _ _
  | extract e _ hz => simp [hs] at hz

/-- Settles O30, from the exact bound of each command, the arithmetic of multiples of 512, and the growth of the count. -/
theorem overflowRule : Obligations.OverflowRule :=
  ⟨fun _ _ _ => exec_block_eq_overflow_iff,
    fun _ _ _ => exec_final_eq_overflow_iff,
    fun _ _ _ _ hs hp hk => (exec_block_eq_overflow_iff hs hp).trans (no_room_for_block_iff hk),
    fun _ _ _ hs hp h512 => ⟨_, exec_final_active hs hp (room_for_payload_of_multiple h512 hp), by simp⟩,
    fun _ _ _ _ _ => bitlen_le_of_exec⟩

/-! ### Leaving `FAULT` -/

/-- A step in `FAULT` discards the pending bytes (60_exceptions.md R113). -/
theorem step_fault {s : State} (h : s.phase = .fault) : step s = .next (s.setCmd []) := by
  simp only [step, fetch_fault h]

/-- Every event but reset keeps the engine in `FAULT`, and reset leads to `IDLE`. -/
theorem phase_of_applyEvent_fault {e : HostEvent} {s t : State} (hs : s.phase = .fault)
    (h : applyEvent e s = .next t) : t.phase = if e = .reset then .idle else .fault := by
  cases e with
  | run =>
    rw [applyEvent, step_fault hs] at h
    cases h
    exact hs
  | append bytes =>
    cases h
    exact hs
  | take n =>
    cases h
    exact hs
  | reset =>
    cases h
    rfl

/-- In `IDLE` every command but `INIT` faults, legal or not. -/
theorem exec_idle_faults {i : Instr} {s : State} (hs : s.phase = .idle) (hi : i ≠ .init) :
    ∃ u, exec i s = .next u ∧ u.phase = .fault := by
  have hidle := (phase_eq_idle s).1 hs
  obtain ⟨u, hu, hc⟩ := exec_case i s
  refine ⟨u, hu, ?_⟩
  cases hc with
  | discarded hf => exact hf
  | faulted c => exact phase_takeFault s c
  | init e => exact absurd e hi
  | block p d _ _ ha => simp [hidle] at ha
  | final p d _ _ ha => simp [hidle] at ha
  | extract d _ hz => simp [hidle] at hz

/-- Settles O34, from the phase after each event in `FAULT` and from the commands in `IDLE`. -/
theorem onlyResetLeavesFault : Obligations.OnlyResetLeavesFault := by
  intro e s t hs h
  have ht := phase_of_applyEvent_fault hs h
  refine ⟨by by_cases he : e = .reset <;> simp [ht, he], fun he => ?_⟩
  have hidle : t.phase = .idle := ht.trans (if_pos he)
  exact ⟨hidle, fun _ => exec_idle_faults hidle⟩

end Sys2Proof.Machine
end

section
/-! PROOFS. What hardware reset leaves (70_reset_and_hazards.md R120). -/

namespace Sys2Proof.Machine

open Sys2Proof.Safety

/-- An empty `BUF` holds no byte at any address. -/
@[simp] theorem readByte_nil (a : Nat) : readByte [] a = none := rfl

/-- The reset state is outside `FAULT` and has no byte to decode, so the engine waits for its first packet. -/
theorem waiting_reset : Waiting State.reset := ⟨by decide, decode_nil⟩

/-- Settles O35: the fields of `State.reset` have the values of R120, with no `DigestState` in `IDLE` to hold `ACC` or
`BITLEN`; its `BUF` lists no byte, and with nothing to decode a step waits. -/
theorem resetRule : Obligations.ResetRule :=
  fun _ => ⟨rfl, rfl, rfl, rfl, readByte_nil, rfl, rfl, rfl, step_of_waiting waiting_reset⟩

end Sys2Proof.Machine
end

section
/-! PROOFS. The decoder and the encoder undo each other (30_encoding.md R40, R54); the packets and sample words of R42. -/

namespace Sys2Proof

open Sys2Proof.Machine

/-- A packet found at the front: its operation code, its `LEN`, `LEN` bytes of payload, and the bytes behind it. -/
theorem decode_packet_inv {bytes rest : List Byte} {i : Instr} (h : decode bytes = .packet i rest) :
    ∃ (op : Op) (len : Byte) (p : List Byte), bytes = op.byte :: len :: (p ++ rest) ∧ p.length = len.toNat ∧
      op.lenLegal p.length = true ∧ i = op.instr p := by
  match bytes, h with
  | b :: len :: tail, h =>
    rw [decode_cons_cons] at h
    split at h
    case h_1 => cases h
    case h_2 op hop =>
      split_ifs at h with hlegal hlen
      cases h
      have hp : (tail.take len.toNat).length = len.toNat := List.length_take_of_le hlen
      exact ⟨op, len, tail.take len.toNat, by rw [ofByte_eq_some hop, List.take_append_drop], hp, by rwa [hp], rfl⟩

/-- A reserved `OP` at the front, and nothing read but the command word. -/
theorem decode_eq_reservedOp_iff {bytes rest : List Byte} :
    decode bytes = .reservedOp rest ↔ ∃ op len, bytes = op :: len :: rest ∧ Op.ofByte op = none := by
  refine ⟨fun h => ?_, ?_⟩
  · match bytes, h with
    | op :: len :: tail, h =>
      rw [decode_cons_cons] at h
      split at h
      case h_1 hop =>
        cases h
        exact ⟨op, len, rfl, hop⟩
      case h_2 => split_ifs at h
  · rintro ⟨op, len, rfl, hop⟩
    rw [decode_cons_cons, hop]

/-- A `LEN` that is illegal for its `OP` at the front, and nothing read but the command word. -/
theorem decode_eq_illegalLen_iff {bytes rest : List Byte} :
    decode bytes = .illegalLen rest ↔
      ∃ op len o, bytes = op :: len :: rest ∧ Op.ofByte op = some o ∧ o.lenLegal len.toNat = false := by
  refine ⟨fun h => ?_, ?_⟩
  · match bytes, h with
    | op :: len :: tail, h =>
      rw [decode_cons_cons] at h
      split at h
      case h_1 => cases h
      case h_2 o hop =>
        split_ifs at h with hl
        cases h
        exact ⟨op, len, o, rfl, hop, Bool.eq_false_iff.2 hl⟩
  · rintro ⟨op, len, o, rfl, hop, hl⟩
    simp [decode_cons_cons, hop, hl]

/-- A whole packet with a legal command word at the front. -/
theorem decode_of_legal {op len : Byte} {o : Op} {rest : List Byte} (hop : Op.ofByte op = some o)
    (hl : o.lenLegal len.toNat = true) (hr : len.toNat ≤ rest.length) :
    decode (op :: len :: rest) = .packet (o.instr (rest.take len.toNat)) (rest.drop len.toNat) := by
  simp [decode_cons_cons, hop, hl, hr]

/-- The packet of a command put together from its parts. -/
theorem encode_instr {op : Op} {len : Byte} {p : List Byte} (hlen : p.length = len.toNat)
    (hlegal : op.lenLegal p.length = true) : encode (op.instr p) = op.byte :: len :: p := by
  rw [encode, Instr.len, op_of_instr, payload_instr hlegal, hlen, BitVec.ofNat_toNat, BitVec.setWidth_eq]

/-- Settles O2: the decoder reads the `LEN` that the encoder wrote. -/
theorem decodeOfEncode : Obligations.DecodeOfEncode := fun _ rest h => decode_encode_append h rest

/-- Settles O3: what the decoder has read are the parts the encoder writes. -/
theorem encodeOfDecode : Obligations.EncodeOfDecode := by
  intro bytes rest i h
  obtain ⟨op, len, p, rfl, hlen, hlegal, rfl⟩ := decode_packet_inv h
  exact ⟨wellFormed_instr hlegal, by rw [encode_instr hlen hlegal]; rfl⟩

/-- Settles O1, by running the decoder on the ten sequences. -/
theorem sampleWordsDecode : Obligations.SampleWordsDecode := by
  unfold Obligations.SampleWordsDecode
  decide

/-- The packet of a `BLOCK` of 64 bytes (41_absorb.md R72). -/
theorem encode_block {p : List Byte} (h : p.length = 64) : encode (.block p) = 0x02 :: 0x40 :: p :=
  encode_instr (op := .block) h (beq_iff_eq.2 h)

/-- Settles O4: `LEN` of a well-formed command is its payload length. -/
theorem packetFormat : Obligations.PacketFormat := by
  refine ⟨rfl, rfl, fun _ => encode_block, fun p hp => ?_⟩
  have hw : (Instr.final p).wellFormed = true := decide_eq_true hp
  exact ⟨(Instr.final p).len, len_toNat hw, rfl, by simp only [encode, Instr.payload, List.length_cons]; omega⟩

/-! ### The classes of command words (30_encoding.md R48) -/

/-- A command word is its two bytes, `OP` above `LEN`. -/
theorem op_append_len (cw : CmdWord) : CmdWord.op cw ++ CmdWord.len cw = cw :=
  BitVec.extractLsb'_append_extractLsb'

@[simp] theorem op_append (op len : Byte) : CmdWord.op (op ++ len) = op := BitVec.extractLsb'_append_eq_left

@[simp] theorem len_append (op len : Byte) : CmdWord.len (op ++ len) = len := BitVec.extractLsb'_append_eq_right

/-- A word with a reserved `OP` is reserved, whatever its `LEN`. -/
theorem classify_of_reserved {op : Byte} (h : Op.ofByte op = none) (len : Byte) :
    classify (op ++ len) = .reservedOp := by
  rw [classify, op_append, h]

/-- A word with a defined `OP` is legal or not by its `LEN`. -/
theorem classify_of_op {op : Byte} {o : Op} (h : Op.ofByte op = some o) (len : Byte) :
    classify (op ++ len) = if o.lenLegal len.toNat then .legal o else .illegalLen := by
  rw [classify, op_append, h, len_append]

/-- A word is legal for an operation by its `OP` and a legal `LEN`. -/
theorem classify_append_eq_legal {op len : Byte} {o : Op} :
    classify (op ++ len) = .legal o ↔ op = o.byte ∧ o.lenLegal len.toNat = true := by
  refine ⟨fun h => ?_, fun ⟨hop, hlen⟩ => ?_⟩
  · cases hop : Op.ofByte op with
    | none => simp [classify_of_reserved hop] at h
    | some o' =>
      rw [classify_of_op hop] at h
      split_ifs at h with hlen
      cases h
      exact ⟨ofByte_eq_some hop, hlen⟩
  · rw [classify_of_op (hop ▸ ofByte_byte o), if_pos hlen]

/-- A word is reserved by its `OP` alone. -/
theorem classify_append_eq_reservedOp {op len : Byte} : classify (op ++ len) = .reservedOp ↔ Op.ofByte op = none := by
  cases hop : Op.ofByte op with
  | none => simp [classify_of_reserved hop]
  | some o => rw [classify_of_op hop]; split <;> simp

/-- A word has an illegal length by its `OP` and its `LEN`. -/
theorem classify_append_eq_illegalLen {op len : Byte} :
    classify (op ++ len) = .illegalLen ↔ ∃ o, Op.ofByte op = some o ∧ o.lenLegal len.toNat = false := by
  cases hop : Op.ofByte op with
  | none => simp [classify_of_reserved hop]
  | some o => simp [classify_of_op hop]

/-- Settles O7: the word's two bytes are the first two of the packet, and the decoder's checks are the class's. -/
theorem decodeFollowsClass : Obligations.DecodeFollowsClass := by
  refine ⟨fun op len rest cw hcw => ?_, fun _ => decode_of_length_lt_two⟩
  obtain rfl : cw = op ++ len := BitVec.eq_of_toNat_eq (hcw.trans (append_byte_toNat op len).symm)
  refine ⟨fun h => ?_, fun h => ?_, fun o h hr => ?_, fun o h hr => ?_⟩
  · exact decode_eq_reservedOp_iff.2 ⟨op, len, rfl, classify_append_eq_reservedOp.1 h⟩
  · obtain ⟨o, hop, hl⟩ := classify_append_eq_illegalLen.1 h
    exact decode_eq_illegalLen_iff.2 ⟨op, len, o, rfl, hop, hl⟩
  · obtain ⟨rfl, hl⟩ := classify_append_eq_legal.1 h
    exact decode_of_legal (ofByte_byte o) hl hr
  · obtain ⟨rfl, hl⟩ := classify_append_eq_legal.1 h
    exact decode_of_short_payload (ofByte_byte o) hl hr

/-! ### The match and mask pairs (90_conflicts.md C13) -/

/-- Command words are equal byte by byte. -/
theorem append_eq_append_iff {op len op' len' : Byte} : op ++ len = op' ++ len' ↔ op = op' ∧ len = len' := by
  refine ⟨fun h => ⟨?_, ?_⟩, fun ⟨hop, hlen⟩ => by rw [hop, hlen]⟩
  · rw [← op_append op len, h, op_append]
  · rw [← len_append op len, h, len_append]

/-- A word under a mask that keeps all of `OP` is compared byte by byte. -/
theorem masked_append_beq (op len mlen top tlen : Byte) :
    ((op ++ len) &&& (0xFF#8 ++ mlen) == top ++ tlen) = true ↔ op = top ∧ len &&& mlen = tlen := by
  have hfull : op &&& 0xFF#8 = op := BitVec.and_allOnes
  rw [beq_iff_eq, BitVec.and_append, append_eq_append_iff, hfull]

/-- The full mask compares the whole `LEN`. -/
theorem and_FF_eq_iff (len n : Byte) : len &&& 0xFF = n ↔ (len.toNat == n.toNat) = true := by
  have hfull : len &&& 0xFF = len := BitVec.and_allOnes
  rw [hfull, beq_iff_eq, BitVec.toNat_inj]

/-- The mask `C0` selects the payload lengths of `FINAL`. -/
theorem and_C0_eq_zero_iff (len : Byte) : len &&& 0xC0 = 0x00 ↔ decide (len.toNat ≤ 63) = true := by
  decide +revert

/-- The empty mask compares nothing. -/
theorem and_00_eq_zero (len : Byte) : len &&& 0x00 = 0x00 := BitVec.and_zero

/-- A row's pair `match`, `mask` selects the row's `OP` with a legal `LEN`. -/
theorem isLegal_append {r : OpRow} (hr : r ∈ opcodeTable) (op len : Byte) :
    r.isLegal (op ++ len) = true ↔ op = r.op.byte ∧ r.op.lenLegal len.toNat = true := by
  simp only [opcodeTable, List.mem_cons, List.not_mem_nil, or_false] at hr
  rcases hr with rfl | rfl | rfl | rfl
  · exact (masked_append_beq op len 0xFF 0x01 0x00).trans (and_congr_right fun _ => and_FF_eq_iff len 0x00)
  · exact (masked_append_beq op len 0xFF 0x02 0x40).trans (and_congr_right fun _ => and_FF_eq_iff len 0x40)
  · exact (masked_append_beq op len 0xC0 0x03 0x00).trans (and_congr_right fun _ => and_C0_eq_zero_iff len)
  · exact (masked_append_beq op len 0xFF 0x04 0x00).trans (and_congr_right fun _ => and_FF_eq_iff len 0x00)

/-- A row's pair `op_match`, `op_mask` selects the row's `OP`. -/
theorem hasOp_append {r : OpRow} (hr : r ∈ opcodeTable) (op len : Byte) :
    r.hasOp (op ++ len) = true ↔ op = r.op.byte := by
  have hmask : ∀ top : Byte, ((op ++ len) &&& (0xFF#8 ++ 0x00#8) == top ++ 0x00#8) = true ↔ op = top := fun top =>
    (masked_append_beq op len 0x00 top 0x00).trans (and_iff_left (and_00_eq_zero len))
  simp only [opcodeTable, List.mem_cons, List.not_mem_nil, or_false] at hr
  rcases hr with rfl | rfl | rfl | rfl
  · exact hmask 0x01
  · exact hmask 0x02
  · exact hmask 0x03
  · exact hmask 0x04

/-- Every operation has a row. -/
theorem exists_row (op : Op) : ∃ r ∈ opcodeTable, r.op = op := by
  cases op <;> decide

/-- No two rows have one operation. -/
theorem row_unique : ∀ r ∈ opcodeTable, ∀ q ∈ opcodeTable, r.op = q.op → r = q := by decide

theorem byte_injective {op op' : Op} (h : op.byte = op'.byte) : op = op' := by
  have hsome : some op = some op' := by rw [← ofByte_byte, h, ofByte_byte]
  exact Option.some.inj hsome

/-- Settles O5, on the two bytes of the word: rows and classes ask the same of `OP` and `LEN`. -/
theorem maskTableSelectsLegalWords : Obligations.MaskTableSelectsLegalWords := by
  refine ⟨fun cw op => ?legal, fun cw => ?reserved, fun cw r q hr hq hlegal hlegal' => ?unique⟩ <;>
    rw [← op_append_len cw] at *
  case legal =>
    rw [classify_append_eq_legal]
    refine ⟨fun h => ?_, ?_⟩
    · obtain ⟨r, hr, rfl⟩ := exists_row op
      exact ⟨r, hr, rfl, (isLegal_append hr _ _).2 h⟩
    · rintro ⟨r, hr, rfl, h⟩
      exact (isLegal_append hr _ _).1 h
  case reserved =>
    rw [classify_append_eq_reservedOp]
    refine ⟨fun h r hr => ?_, fun h => ?_⟩
    · rw [← Bool.not_eq_true, hasOp_append hr]
      rintro e
      simp [e] at h
    · refine Option.eq_none_iff_forall_ne_some.2 fun op hop => ?_
      obtain ⟨r, hr, rfl⟩ := exists_row op
      simpa [h r hr] using (hasOp_append hr _ (CmdWord.len cw)).2 (ofByte_eq_some hop)
  case unique =>
    obtain ⟨hop, _⟩ := (isLegal_append hr _ _).1 hlegal
    obtain ⟨hop', _⟩ := (isLegal_append hq _ _).1 hlegal'
    exact row_unique r hr q hq (byte_injective (hop.symm.trans hop'))

/-! ### The counts of R48 -/

/-- How many command words with this `OP` have a class that meets `c`. -/
def wordsOfClass (c : WordClass → Bool) (op : Nat) : Nat :=
  (List.range 256).countP fun len => c (classify (BitVec.ofNat 8 op ++ BitVec.ofNat 8 len))

/-- Behind an `OP` of 5 or more every word is reserved. -/
theorem wordsOfClass_of_ge (c : WordClass → Bool) {op : Nat} (h : 5 ≤ op) (h' : op < 256) :
    wordsOfClass c op = if c .reservedOp then 256 else 0 := by
  have hne : ∀ k : Nat, k < 5 → BitVec.ofNat 8 op ≠ BitVec.ofNat 8 k := fun k hk e => by
    have := congrArg BitVec.toNat e
    simp only [BitVec.toNat_ofNat] at this
    omega
  have hop : Op.ofByte (BitVec.ofNat 8 op) = none :=
    ofByte_eq_none.2 ⟨hne 1 (by decide), hne 2 (by decide), hne 3 (by decide), hne 4 (by decide)⟩
  simp only [wordsOfClass, classify_of_reserved hop]
  split
  case isTrue hc => simp [hc]
  case isFalse hc => simp [hc]

/-- All the command words of a class, those with a defined `OP` counted one `OP` after the other. -/
theorem sum_wordsOfClass (c : WordClass → Bool) :
    ((List.range 256).map (wordsOfClass c)).sum =
      ((List.range 5).map (wordsOfClass c)).sum + 251 * if c .reservedOp then 256 else 0 := by
  have hrange : List.range 256 = List.range 5 ++ (List.range 251).map (5 + ·) := by rw [← List.range_add]
  have hreserved : ∀ k ∈ List.range 251, wordsOfClass c (5 + k) = if c .reservedOp then 256 else 0 := fun k hk =>
    wordsOfClass_of_ge c (Nat.le_add_right _ _) (by have := List.mem_range.1 hk; omega)
  rw [hrange, List.map_append, List.sum_append, List.map_map, Function.comp_def, List.map_congr_left hreserved,
    List.map_const', List.length_range, List.sum_replicate, smul_eq_mul]

/-- Settles O6: only the words whose `OP` is less than 5 are counted one by one. -/
theorem commandWordCounts : Obligations.CommandWordCounts :=
  ⟨(sum_wordsOfClass fun c => match c with | .legal _ => true | _ => false).trans (by decide +kernel),
    (sum_wordsOfClass fun c => match c with | .illegalLen => true | _ => false).trans (by decide +kernel),
    (sum_wordsOfClass fun c => match c with | .reservedOp => true | _ => false).trans (by decide +kernel)⟩

end Sys2Proof
end

section
/-! PROOFS. What a command and a step leave unchanged (10_state.md R21), and the invariant of the state (R12, R13, R17,
R19). -/

namespace Sys2Proof.Machine

open Sys2Proof.Safety

/-! ### Frames -/

/-- Releasing the block leaves every address outside it alone. -/
theorem readByte_releaseBlock_outside (m : Memory) {a : Nat} (h : a < blockAddr ∨ blockAddr + 64 ≤ a) :
    readByte (releaseBlock m) a = readByte m a := by
  rw [releaseBlock, readByte_releaseBytes, if_pos h]

/-- A released block holds no byte. -/
theorem readByte_releaseBlock_inside (m : Memory) {k : Nat} (h : k < 64) :
    readByte (releaseBlock m) (blockAddr + k) = none := by
  rw [releaseBlock, readByte_releaseBytes, if_neg (by simp only [Config.blockBytes_eq]; omega)]

section
variable {i : Instr} {s t : State}

/-- No command takes from the command stream. -/
theorem execCase_cmd (h : ExecCase i s t) : t.cmd = s.cmd := by
  cases h <;> rfl

/-- Every command only appends to the response stream. -/
theorem execCase_resp (h : ExecCase i s t) : s.resp <+: t.resp := by
  cases h with
  | discarded => exact List.prefix_refl _
  | faulted | init | block | final | extract => exact List.prefix_append _ _

/-- A command leaves `BUF` alone or releases the block it stored there. -/
theorem execCase_buf (h : ExecCase i s t) : t.buf = s.buf ∨ t.buf = releaseBlock s.buf := by
  cases h with
  | discarded | faulted | init | extract => exact .inl rfl
  | block | final => exact .inr rfl

/-- Only `BLOCK` and `FINAL` use `BUF`. -/
theorem execCase_buf_of_init_or_extract (h : ExecCase i s t) (hi : i = .init ∨ i = .extract) : t.buf = s.buf := by
  cases h with
  | discarded | faulted | init | extract => rfl
  | block p d e | final p d e => simp [e] at hi

/-- Only a fault writes `ERRCODE`. -/
theorem execCase_errcode (h : ExecCase i s t) (ht : t.phase ≠ .fault) : t.errcode = s.errcode := by
  cases h with
  | discarded | init | block | final | extract => rfl
  | faulted c => exact absurd (phase_takeFault s c) ht

end

/-- Settles O22, from the frame of every command. -/
theorem initExtractFrame : Obligations.InitExtractFrame := by
  intro i s t hi _ h ht
  have hc := exec_inv h
  exact ⟨execCase_errcode hc ht, execCase_cmd hc, execCase_resp hc,
    fun _ => by rw [execCase_buf_of_init_or_extract hc hi]⟩

/-- Settles O23, from the frame of every command. -/
theorem blockFinalFrame : Obligations.BlockFinalFrame := by
  intro i p s t _ _ h ht
  have hc := exec_inv h
  refine ⟨execCase_errcode hc ht, execCase_cmd hc, execCase_resp hc, fun a ha => ?_⟩
  rcases execCase_buf hc with e | e
  · rw [e]
  · rw [e, readByte_releaseBlock_outside _ ha]

/-- A step leaves `BUF` alone or releases the block it stored there. -/
theorem step_buf {s t : State} (h : step s = .next t) : t.buf = s.buf ∨ t.buf = releaseBlock s.buf := by
  cases step_inv h with
  | discard | wait | reserved | illegal => exact .inl rfl
  | run i rest _ _ _ hc => simpa using execCase_buf hc

/-- Settles O42: an empty buffer left alone or released is empty. -/
theorem bufferHoldsNothing : Obligations.BufferHoldsNothing := by
  refine ⟨rfl, fun s t hs h => ?_⟩
  rcases step_buf h with e | e
  · rw [e, hs]
  · rw [e, hs, releaseBlock_of_wf wf_nil]

/-! ### The invariant -/

/-- Settles O40: at reset there is no count, no byte of `BUF` and no fault. -/
theorem resetMeetsInvariant : Obligations.ResetMeetsInvariant :=
  ⟨wf_nil, by decide, by decide, trivial⟩

/-- The invariant does not speak of the streams. -/
theorem stateInv_of_same_registers {s t : State} (h : StateInv s) (hs : t.stage = s.stage)
    (he : t.errcode = s.errcode) (hb : t.buf = s.buf) : StateInv t := by
  obtain ⟨hwf, hiff, hrange, hcount⟩ := h
  exact ⟨hb ▸ hwf, by rw [he, phase_def, hs]; exact hiff, he ▸ hrange, hs ▸ hcount⟩

/-- Fault entry gives a nonzero code to an engine in `FAULT`. -/
theorem stateInv_takeFault {s : State} (h : StateInv s) (c : FaultCode) : StateInv (takeFault c s) :=
  ⟨h.bufWf, iff_of_true (byte_ne_zero c) (phase_takeFault s c), byte_toNat_le c, trivial⟩

/-- Accepted commands keep the invariant if the count they leave is a legal one. -/
theorem stateInv_of_accepted {i : Instr} {s t : State} (h : StateInv s) (hc : ExecCase i s t) (hs : s.phase ≠ .fault)
    (ht : t.phase ≠ .fault) (hcount : countOk t.stage) : StateInv t := by
  have he := execCase_errcode hc ht
  refine ⟨?_, ?_, he ▸ h.errcodeRange, hcount⟩
  · rcases execCase_buf hc with e | e
    · exact e ▸ h.bufWf
    · exact e ▸ wf_releaseBytes h.bufWf _ _
  · rw [he]
    exact iff_of_false (mt h.errcodeIff.1 hs) ht

/-- Every command keeps the invariant: `BLOCK` adds 512 to a multiple of 512, `FINAL` a multiple of 8. -/
theorem stateInv_of_execCase {i : Instr} {s t : State} (h : StateInv s) (hc : ExecCase i s t) : StateInv t := by
  cases hc with
  | discarded => exact h
  | faulted c => exact stateInv_takeFault h c
  | init e hf => exact stateInv_of_accepted h (.init e hf) hf (by simp) (show (0 : Count).toNat % 512 = 0 from rfl)
  | block p d e hp hs hr =>
    have hmod : d.bitlen.toNat % 512 = 0 := by simpa [hs, countOk] using h.count
    refine stateInv_of_accepted h (.block p d e hp hs hr) (by simp [phase_def, hs]) (by simp) ?_
    show (d.bitlen + 512).toNat % 512 = 0
    rw [toNat_add_512 hr]
    omega
  | final p d e hp hs hr =>
    have hmod : d.bitlen.toNat % 512 = 0 := by simpa [hs, countOk] using h.count
    refine stateInv_of_accepted h (.final p d e hp hs hr) (by simp [phase_def, hs]) (by simp) ?_
    show (d.bitlen + payloadBits (Instr.final p).len).toNat % 8 = 0
    rw [toNat_add_payloadBits hp hr]
    omega
  | extract d e hs => exact stateInv_of_accepted h (.extract d e hs) (by simp [phase_def, hs]) (by simp) trivial

/-- Settles O41, from fault entry and from the commands. -/
theorem stepKeepsInvariant : Obligations.StepKeepsInvariant := by
  intro s t h hstep
  have hcmd : ∀ rest, StateInv (s.setCmd rest) := fun _ => stateInv_of_same_registers h rfl rfl rfl
  cases step_inv hstep with
  | discard => exact hcmd []
  | wait => exact h
  | reserved rest => exact stateInv_takeFault (hcmd rest) _
  | illegal rest => exact stateInv_takeFault (hcmd rest) _
  | run i rest _ _ _ hc => exact stateInv_of_execCase (hcmd rest) hc

/-! ### Sequences of events -/

/-- The first event of a sequence, then the others. -/
theorem applyEvents_cons_inv {e : HostEvent} {es : List HostEvent} {s t : State}
    (h : applyEvents (e :: es) s = .next t) : ∃ u, applyEvent e s = .next u ∧ applyEvents es u = .next t := by
  rw [applyEvents] at h
  cases he : applyEvent e s with
  | next u => exact ⟨u, rfl, by simpa only [he] using h⟩
  | fault f => simp [he] at h
  | refused r => simp [he] at h

/-- What each of the events keeps, the sequence keeps. -/
theorem applyEvents_keeps {P : State → Prop} {es : List HostEvent}
    (hkeep : ∀ e ∈ es, ∀ s t, P s → applyEvent e s = .next t → P t) {s t : State} (hs : P s)
    (h : applyEvents es s = .next t) : P t := by
  induction es generalizing s with
  | nil =>
    cases h
    exact hs
  | cons e es ih =>
    obtain ⟨hhead, htail⟩ := List.forall_mem_cons.1 hkeep
    obtain ⟨u, hu, hrest⟩ := applyEvents_cons_inv h
    exact ih htail (hhead s u hs hu) hrest

/-- Every event keeps the invariant. -/
theorem stateInv_of_applyEvent {e : HostEvent} {s t : State} (h : StateInv s) (he : applyEvent e s = .next t) :
    StateInv t := by
  cases e with
  | run => exact stepKeepsInvariant s t h he
  | append bytes =>
    cases he
    exact stateInv_of_same_registers h rfl rfl rfl
  | take n =>
    cases he
    exact stateInv_of_same_registers h rfl rfl rfl
  | reset =>
    cases he
    exact resetMeetsInvariant

/-- Settles O43, from the single events. -/
theorem eventsKeepInvariant : Obligations.EventsKeepInvariant := fun _ _ _ h =>
  applyEvents_keeps (fun _ _ _ _ => stateInv_of_applyEvent) h

/-- In `FAULT` an event that is not a reset changes the streams alone (60_exceptions.md R113). -/
theorem applyEvent_fault {e : HostEvent} {s t : State} (hs : s.phase = .fault) (he : e ≠ .reset)
    (h : applyEvent e s = .next t) : t.stage = s.stage ∧ t.errcode = s.errcode := by
  cases e with
  | run =>
    rw [applyEvent, step_fault hs] at h
    cases h
    exact ⟨rfl, rfl⟩
  | append bytes =>
    cases h
    exact ⟨rfl, rfl⟩
  | take n =>
    cases h
    exact ⟨rfl, rfl⟩
  | reset => exact absurd rfl he

/-- The invariant holds after `s`, and a nonzero `ERRCODE` of `s` still stands. -/
def ErrcodeKept (s t : State) : Prop := StateInv t ∧ (s.errcode ≠ 0x00 → t.errcode = s.errcode)

/-- Along the invariant a nonzero `ERRCODE` means `FAULT`, where only a reset writes it. -/
theorem errcodeKept_of_applyEvent {e : HostEvent} {s t u : State} (he : e ≠ .reset) (ht : ErrcodeKept s t)
    (h : applyEvent e t = .next u) : ErrcodeKept s u := by
  obtain ⟨hinv, hkept⟩ := ht
  refine ⟨stateInv_of_applyEvent hinv h, fun hne => ?_⟩
  have hfault : t.phase = .fault := hinv.errcodeIff.1 (by rwa [hkept hne])
  obtain ⟨_, hcode⟩ := applyEvent_fault hfault he h
  rw [hcode, hkept hne]

/-- Settles O44, from the single events. -/
theorem errcodeIsSticky : Obligations.ErrcodeIsSticky := by
  intro es s t hs hes h
  obtain ⟨hinv, hkept⟩ : ErrcodeKept s t :=
    applyEvents_keeps (fun e he _ _ => errcodeKept_of_applyEvent (hes e he)) ⟨hs, fun _ => rfl⟩ h
  exact ⟨hkept, hinv.errcodeIff⟩

end Sys2Proof.Machine
end

section
/-! PROOFS. Every step answers a next state, whatever is appended behind the packet it executes (20_memory.md R35, R36,
70_reset_and_hazards.md R125). -/

namespace Sys2Proof.Machine

/-- Outside `FAULT` a step executes the packet the decoder finds (30_encoding.md R50). -/
theorem step_of_packet {s : State} {i : Instr} {rest : List Byte} (hf : s.phase ≠ .fault)
    (hd : decode s.cmd = .packet i rest) : step s = exec i (s.setCmd rest) := by
  simp only [step, fetch_of_ne hf, fetchPacket, hd]

/-- Settles O36: the packet of a well-formed command decodes to it. -/
theorem stepRunsDecoded : Obligations.StepRunsDecoded :=
  ⟨fun _ _ _ => step_of_packet, fun _ _ _ hf hw => step_encode_append hw hf⟩

/-- A reserved `OP` faults on the command word (60_exceptions.md R106). -/
theorem step_of_reservedOp {s : State} {rest : List Byte} (hf : s.phase ≠ .fault)
    (hd : decode s.cmd = .reservedOp rest) : step s = .next (takeFault .opcode (s.setCmd rest)) := by
  simp only [step, fetch_of_ne hf, fetchPacket, hd, raise]

/-- An illegal `LEN` faults on the command word (60_exceptions.md R107). -/
theorem step_of_illegalLen {s : State} {rest : List Byte} (hf : s.phase ≠ .fault)
    (hd : decode s.cmd = .illegalLen rest) : step s = .next (takeFault .length (s.setCmd rest)) := by
  simp only [step, fetch_of_ne hf, fetchPacket, hd, raise]

/-- Settles O38, by what the engine takes from the command stream. -/
theorem stepNeverStops : Obligations.StepNeverStops := by
  intro s
  by_cases hf : s.phase = .fault
  · exact ⟨_, step_fault hf⟩
  cases hd : decode s.cmd with
  | packet i rest =>
    obtain ⟨t, ht, _⟩ := exec_case i (s.setCmd rest)
    exact ⟨t, (step_of_packet hf hd).trans ht⟩
  | incomplete => exact ⟨s, step_of_waiting ⟨hf, hd⟩⟩
  | reservedOp rest => exact ⟨_, step_of_reservedOp hf hd⟩
  | illegalLen rest => exact ⟨_, step_of_illegalLen hf hd⟩

/-- Every event answers a next state. -/
theorem applyEvent_next (e : HostEvent) (s : State) : ∃ t, applyEvent e s = .next t := by
  cases e with
  | run => exact stepNeverStops s
  | append | take | reset => exact ⟨_, rfl⟩

/-- An event, then the others. -/
theorem applyEvents_cons {e : HostEvent} {s t : State} (h : applyEvent e s = .next t) (es : List HostEvent) :
    applyEvents (e :: es) s = applyEvents es t := by
  rw [applyEvents, h]

/-- Every sequence of events answers a next state. -/
theorem applyEvents_next (es : List HostEvent) (s : State) : ∃ t, applyEvents es s = .next t := by
  induction es generalizing s with
  | nil => exact ⟨s, rfl⟩
  | cons e es ih =>
    obtain ⟨t, ht⟩ := applyEvent_next e s
    rw [applyEvents_cons ht]
    exact ih t

/-! ### Bytes behind a packet -/

section
variable {bytes rest : List Byte} (more : List Byte)

/-- A packet is found whatever stands behind it. -/
theorem decode_append_of_packet {i : Instr} (h : decode bytes = .packet i rest) :
    decode (bytes ++ more) = .packet i (rest ++ more) := by
  obtain ⟨hw, rfl⟩ := encodeOfDecode bytes rest i h
  rw [List.append_assoc, decode_encode_append hw]

/-- A reserved `OP` is refused whatever stands behind the command word. -/
theorem decode_append_of_reservedOp (h : decode bytes = .reservedOp rest) :
    decode (bytes ++ more) = .reservedOp (rest ++ more) := by
  obtain ⟨op, len, rfl, hop⟩ := decode_eq_reservedOp_iff.1 h
  exact decode_eq_reservedOp_iff.2 ⟨op, len, rfl, hop⟩

/-- An illegal `LEN` is refused whatever stands behind the command word. -/
theorem decode_append_of_illegalLen (h : decode bytes = .illegalLen rest) :
    decode (bytes ++ more) = .illegalLen (rest ++ more) := by
  obtain ⟨op, len, o, rfl, hop, hl⟩ := decode_eq_illegalLen_iff.1 h
  exact decode_eq_illegalLen_iff.2 ⟨op, len, o, rfl, hop, hl⟩

end

/-! ### Bytes behind the packet being executed -/

/-- The second outcome is the first with bytes appended to the command stream. -/
def SameButAppended (bytes : List Byte) (o o' : Out) : Prop := ∀ t, o = .next t → o' = .next (hostAppend bytes t)

section
variable {bytes : List Byte} {s : State}

/-- An effect that does not look at the command stream. -/
theorem sameButAppended_next {t t' : State} (h : t' = hostAppend bytes t) :
    SameButAppended bytes (.next t) (.next t') := by
  rintro _ ⟨⟩
  rw [h]

theorem sameButAppended_unlessFault {body body' : Out} (h : SameButAppended bytes body body') :
    SameButAppended bytes (unlessFault s body) (unlessFault (hostAppend bytes s) body') := by
  rw [unlessFault, unlessFault, hostAppend_stage]
  cases s.stage with
  | fault => exact sameButAppended_next rfl
  | idle | active | frozen => exact h

theorem sameButAppended_requireLength {legal : Bool} {body body' : Out} (h : SameButAppended bytes body body') :
    SameButAppended bytes (requireLength legal s body) (requireLength legal (hostAppend bytes s) body') := by
  cases legal with
  | false => exact sameButAppended_next rfl
  | true => exact h

theorem sameButAppended_requireActive {body body' : DigestState → Out}
    (h : ∀ d, SameButAppended bytes (body d) (body' d)) :
    SameButAppended bytes (requireActive s body) (requireActive (hostAppend bytes s) body') := by
  rw [requireActive, requireActive, hostAppend_stage]
  cases s.stage with
  | active d => exact h d
  | idle | frozen | fault => exact sameButAppended_next rfl

theorem sameButAppended_requireFrozen {body body' : DigestState → Out}
    (h : ∀ d, SameButAppended bytes (body d) (body' d)) :
    SameButAppended bytes (requireFrozen s body) (requireFrozen (hostAppend bytes s) body') := by
  rw [requireFrozen, requireFrozen, hostAppend_stage]
  cases s.stage with
  | frozen d => exact h d
  | idle | active | fault => exact sameButAppended_next rfl

theorem sameButAppended_requireRoom {d : DigestState} {bits : Nat} {body body' : Out}
    (h : SameButAppended bytes body body') :
    SameButAppended bytes (requireRoom d bits s body) (requireRoom d bits (hostAppend bytes s) body') := by
  rw [requireRoom_eq, requireRoom_eq]
  split
  · exact h
  · exact sameButAppended_next rfl

theorem sameButAppended_absorbBlock {p : List Byte} {d : DigestState} :
    SameButAppended bytes (absorbBlock p d s) (absorbBlock p d (hostAppend bytes s)) := by
  rw [absorbBlock, absorbBlock, hostAppend_buf]
  cases foldBlock d.acc s.buf p with
  | error f => rintro _ ⟨⟩
  | ok r => exact sameButAppended_next rfl

theorem sameButAppended_finishDigest {p : List Byte} {d : DigestState} :
    SameButAppended bytes (finishDigest p d s) (finishDigest p d (hostAppend bytes s)) := by
  rw [finishDigest, finishDigest, hostAppend_buf]
  cases foldTail d.acc s.buf (paddedTail p (d.bitlen + payloadBits (Instr.final p).len)) with
  | error f => rintro _ ⟨⟩
  | ok r => exact sameButAppended_next rfl

/-- No command looks at what is left of the command stream. -/
theorem sameButAppended_exec (i : Instr) : SameButAppended bytes (exec i s) (exec i (hostAppend bytes s)) := by
  cases i with
  | init => exact sameButAppended_unlessFault (sameButAppended_next rfl)
  | block p =>
    exact sameButAppended_unlessFault <| sameButAppended_requireLength <| sameButAppended_requireActive fun _ =>
      sameButAppended_requireRoom sameButAppended_absorbBlock
  | final p =>
    exact sameButAppended_unlessFault <| sameButAppended_requireLength <| sameButAppended_requireActive fun _ =>
      sameButAppended_requireRoom sameButAppended_finishDigest
  | extract =>
    exact sameButAppended_unlessFault <| sameButAppended_requireFrozen fun _ => sameButAppended_next rfl

end

/-- Settles O39: the decoder finds the same, and the command does the same. -/
theorem pipeliningEqualsWaiting : Obligations.PipeliningEqualsWaiting := by
  intro s t bytes hf hd h
  have hf' : (hostAppend bytes s).phase ≠ .fault := hf
  cases hdec : decode s.cmd with
  | packet i rest =>
    rw [step_of_packet hf hdec] at h
    rw [step_of_packet hf' (decode_append_of_packet bytes hdec)]
    exact sameButAppended_exec i t h
  | incomplete => exact absurd hdec hd
  | reservedOp rest =>
    rw [step_of_reservedOp hf hdec] at h
    cases h
    exact step_of_reservedOp hf' (decode_append_of_reservedOp bytes hdec)
  | illegalLen rest =>
    rw [step_of_illegalLen hf hdec] at h
    cases h
    exact step_of_illegalLen hf' (decode_append_of_illegalLen bytes hdec)

end Sys2Proof.Machine
end

section
/-! PROOFS. An engine in `FAULT` (60_exceptions.md R113) and several engines (20_memory.md R39). -/

namespace Sys2Proof.Machine

open Sys2Proof.Safety

/-- `t` is `s` but for what is left of the command stream. -/
def SameButCmd (s t : State) : Prop := t = s.setCmd t.cmd

/-- Steps and appended bytes change the command stream of an engine in `FAULT` and nothing else. -/
theorem sameButCmd_of_applyEvent {e : HostEvent} {s t u : State} (hs : s.phase = .fault)
    (he : e = .run ∨ ∃ bytes, e = .append bytes) (ht : SameButCmd s t) (h : applyEvent e t = .next u) :
    SameButCmd s u := by
  rw [SameButCmd] at ht
  rcases he with rfl | ⟨bytes, rfl⟩
  · have hfault : t.phase = .fault := by rw [ht, phase_setCmd, hs]
    rw [applyEvent, step_fault hfault] at h
    cases h
    rw [ht]
    rfl
  · cases h
    rw [ht]
    rfl

/-- No run completes from `FAULT`. -/
theorem not_completesFrom_fault {s : State} (h : s.phase = .fault) : ¬ CompletesFrom s := by
  intro hrun
  cases hrun with
  | done _ hf => exact hf h
  | packet _ _ _ _ hf => exact hf h

/-- Settles O33, from the single events. -/
theorem faultIsQuiescent : Obligations.FaultIsQuiescent := by
  refine ⟨fun s hs => step_fault hs, fun es s hs hes => ?_, fun s => not_completesFrom_fault⟩
  obtain ⟨t, ht⟩ := applyEvents_next es s
  have hkept : SameButCmd s t := applyEvents_keeps (fun e he _ _ => sameButCmd_of_applyEvent hs (hes e he))
    (show SameButCmd s s from rfl) ht
  exact ⟨t.cmd, ht.trans (congrArg _ hkept)⟩

/-! ### Several engines -/

/-- An event at an engine of the system changes that engine alone. -/
theorem systemApply_of_some {sys : EngineSystem} {k : Nat} {e : HostEvent} {s t : State} (hk : sys[k]? = some s)
    (h : applyEvent e s = .next t) : systemApply k e sys = .next (sys.set k t) := by
  simp only [systemApply, hk, h]

/-- An event at no engine of the system does nothing. -/
theorem systemApply_of_none {sys : EngineSystem} {k : Nat} (hk : sys[k]? = none) (e : HostEvent) :
    systemApply k e sys = .next sys := by
  simp only [systemApply, hk]

theorem eventsOf_cons_self (k : Nat) (e : HostEvent) (es : List (Nat × HostEvent)) :
    eventsOf k ((k, e) :: es) = e :: eventsOf k es := by
  simp [eventsOf]

theorem eventsOf_cons_ne {k j : Nat} (h : j ≠ k) (e : HostEvent) (es : List (Nat × HostEvent)) :
    eventsOf k ((j, e) :: es) = eventsOf k es := by
  simp [eventsOf, h]

theorem systemApplyAll_cons {k : Nat} {e : HostEvent} {sys sys' : EngineSystem}
    (h : systemApply k e sys = .next sys') (es : List (Nat × HostEvent)) :
    systemApplyAll ((k, e) :: es) sys = systemApplyAll es sys' := by
  rw [systemApplyAll, h]

/-- Settles O58, event by event: the engine addressed takes the event, and every other one is as before. -/
theorem enginesShareNothing : Obligations.EnginesShareNothing := by
  intro es
  induction es with
  | nil => exact fun sys => ⟨sys, rfl, rfl, fun k s hk => ⟨s, rfl, hk⟩⟩
  | cons ke es ih =>
    intro sys
    obtain ⟨j, e⟩ := ke
    cases hj : sys[j]? with
    | none =>
      obtain ⟨sys', hall, hlen, hengine⟩ := ih sys
      refine ⟨sys', (systemApplyAll_cons (systemApply_of_none hj e) es).trans hall, hlen, fun k s hk => ?_⟩
      have hne : j ≠ k := fun hjk => by simp [← hjk, hj] at hk
      rw [eventsOf_cons_ne hne]
      exact hengine k s hk
    | some u =>
      obtain ⟨v, hv⟩ := applyEvent_next e u
      obtain ⟨sys', hall, hlen, hengine⟩ := ih (sys.set j v)
      refine ⟨sys', (systemApplyAll_cons (systemApply_of_some hj hv) es).trans hall, by simpa using hlen,
        fun k s hk => ?_⟩
      by_cases hjk : j = k
      · subst hjk
        obtain rfl : u = s := by simpa [hj] using hk
        rw [eventsOf_cons_self, applyEvents_cons hv]
        exact hengine j v (List.getElem?_set_self (List.getElem?_eq_some_iff.1 hj).1)
      · rw [eventsOf_cons_ne hjk]
        exact hengine k s (by rw [List.getElem?_set_ne hjk, hk])

end Sys2Proof.Machine
end

section
/-! PROOFS. The four commands, each with its faults in order (41_absorb.md R70, R72, 42_finalize.md R82, R86,
60_exceptions.md R106 to R112). -/

namespace Sys2Proof.Machine

/-! ### The faults on the command word -/

/-- `E_OPCODE` on the command word (60_exceptions.md R106). -/
theorem step_of_reserved_byte {s : State} {op len : Byte} {rest : List Byte} (hf : s.phase ≠ .fault)
    (hc : s.cmd = op :: len :: rest) (hop : Op.ofByte op = none) :
    step s = .next (takeFault .opcode (s.setCmd rest)) :=
  step_of_reservedOp hf (decode_eq_reservedOp_iff.2 ⟨op, len, hc, hop⟩)

/-- `E_LENGTH` on the command word (60_exceptions.md R107). -/
theorem step_of_illegal_byte {s : State} {op len : Byte} {o : Op} {rest : List Byte} (hf : s.phase ≠ .fault)
    (hc : s.cmd = op :: len :: rest) (hop : Op.ofByte op = some o) (hl : o.lenLegal len.toNat = false) :
    step s = .next (takeFault .length (s.setCmd rest)) :=
  step_of_illegalLen hf (decode_eq_illegalLen_iff.2 ⟨op, len, o, hc, hop, hl⟩)

/-- Settles O27: the four values excluded are the defined ones. -/
theorem reservedOpcodeFaults : Obligations.ReservedOpcodeFaults := fun _ _ _ _ hf hc h1 h2 h3 h4 =>
  step_of_reserved_byte hf hc (ofByte_eq_none.2 ⟨h1, h2, h3, h4⟩)

/-- Settles O28: each of the lengths named is illegal for its operation. -/
theorem illegalLengthFaults : Obligations.IllegalLengthFaults := by
  rintro s op len rest hf hc (⟨rfl | rfl, hl⟩ | ⟨rfl, hl⟩ | ⟨rfl, hl⟩)
  · exact step_of_illegal_byte (o := .init) hf hc rfl (beq_false_of_ne hl)
  · exact step_of_illegal_byte (o := .extract) hf hc rfl (beq_false_of_ne hl)
  · exact step_of_illegal_byte (o := .block) hf hc rfl (beq_false_of_ne hl)
  · exact step_of_illegal_byte (o := .final) hf hc rfl (decide_eq_false (Nat.not_le.2 hl))

/-- No payload but the empty one is legal for `INIT` and `EXTRACT`. -/
theorem toNat_ne_zero {len : Byte} (h : len ≠ 0x00) : len.toNat ≠ 0 := fun e => h (BitVec.eq_of_toNat_eq e)

/-! ### The commands -/

/-- Settles O17, from the effect of `INIT` and from its illegal lengths. -/
theorem initRule : Obligations.InitRule :=
  ⟨rfl, fun _ hf => exec_init hf,
    fun s len rest hf hlen hc => illegalLengthFaults s 0x01 len rest hf hc (.inl ⟨.inl rfl, toNat_ne_zero hlen⟩)⟩

/-- A `BLOCK` of any other length is `E_LENGTH`. -/
theorem exec_block_of_length_ne {s : State} {p : List Byte} (hf : s.phase ≠ .fault) (hp : p.length ≠ 64) :
    exec (.block p) s = .next (takeFault .length s) := by
  simp [exec, execBlock, unlessFault_of_ne hf, requireLength_eq, hp]

/-- A `FINAL` of 64 bytes or more is `E_LENGTH`. -/
theorem exec_final_of_length_ge {s : State} {p : List Byte} (hf : s.phase ≠ .fault) (hp : 64 ≤ p.length) :
    exec (.final p) s = .next (takeFault .length s) := by
  simp [exec, execFinal, unlessFault_of_ne hf, requireLength_eq, Nat.not_le.2 hp]

/-- Settles O19, from the effect of `BLOCK` and the release of its block, and its three faults. -/
theorem blockRule : Obligations.BlockRule := by
  refine ⟨fun _ => encode_block, fun s d p hs hp hr => ?_, fun _ _ => exec_block_of_length_ne, fun s p hs hp => ?_,
    fun _ _ _ hs hp => (exec_block_eq_overflow_iff hs hp).2⟩
  · exact ⟨releaseBlock s.buf, d.bitlen + 512, toNat_add_512 hr, exec_block_active hs hp hr,
      fun _ => readByte_releaseBlock_inside _, fun _ => readByte_releaseBlock_outside _⟩
  · exact outOfPhaseFaults.1 s (.block p) p (beq_iff_eq.2 hp) (.inl rfl) hs

/-- The zero count of the padding in the form of 42_finalize.md R80. -/
theorem zeroCount_eq_toNat {n : Nat} (h : n ≤ 63) : zeroCount n = ((55 - (n : Int)) % 64).toNat := by
  rw [← zeroCount_eq_emod h, Int.toNat_natCast]

/-- The one or two blocks of a padded tail, in order. -/
theorem foldTailAccum_paddedTail (acc : Accum) {p : List Byte} (L : Count) (h : p.length ≤ 63) :
    foldTailAccum acc (paddedTail p L) =
      if (paddedTail p L).length = 128 then
        compress (compress acc ((paddedTail p L).take 64)) ((paddedTail p L).drop 64)
      else compress acc ((paddedTail p L).take 64) := by
  have hlen := paddedTail_length p L h
  split at hlen
  · simp [foldTailAccum, hlen, List.take_of_length_le hlen.le]
  · simp [foldTailAccum, hlen]

/-- Settles O20, from the effect of `FINAL` and the release of its blocks, and its three faults. -/
theorem finalRule : Obligations.FinalRule := by
  refine ⟨fun _ _ => rfl, fun s d p hs hp hr => ?_, fun _ _ => exec_final_of_length_ge, fun s p hs hp => ?_,
    fun _ _ _ hs hp => (exec_final_eq_overflow_iff hs hp).2⟩
  · refine ⟨d.bitlen + payloadBits (Instr.final p).len, paddedTail p (d.bitlen + payloadBits (Instr.final p).len),
      releaseBlock s.buf, toNat_add_payloadBits hp hr, ?_, ?_, fun _ => readByte_releaseBlock_inside _,
      fun _ => readByte_releaseBlock_outside _⟩
    · rw [← zeroCount_eq_toNat hp]
      rfl
    · rw [exec_final_active hs hp hr, ← foldTailAccum_paddedTail _ _ hp]
      rfl
  · exact outOfPhaseFaults.1 s (.final p) p (decide_eq_true hp) (.inr rfl) hs

/-- Settles O21, from the effect of `EXTRACT`, its illegal lengths and its phases. -/
theorem extractRule : Obligations.ExtractRule :=
  ⟨rfl, fun s d hs => ⟨_, exec_extract_frozen hs, rfl, rfl, rfl, by simp⟩,
    fun s len rest hf hlen hc => illegalLengthFaults s 0x04 len rest hf hc (.inl ⟨.inr rfl, toNat_ne_zero hlen⟩),
    outOfPhaseFaults.2.1⟩

/-! ### The order of the faults, and fault entry -/

/-- The command of a legal command word is well-formed once its payload is there. -/
theorem wellFormed_of_legal {o : Op} {len : Byte} {rest : List Byte} (hl : o.lenLegal len.toNat = true)
    (hr : len.toNat ≤ rest.length) : (o.instr (rest.take len.toNat)).wellFormed = true :=
  wellFormed_instr (by rwa [List.length_take_of_le hr])

/-- `E_OVERFLOW` where the count has no room for the bits of the command (60_exceptions.md R110). -/
theorem exec_overflow {o : Op} {s : State} {d : DigestState} {p : List Byte} (ho : o = .block ∨ o = .final)
    (hl : o.lenLegal p.length = true) (hs : s.stage = .active d)
    (hr : d.bitlen.toNat + (if o = .block then 512 else 8 * p.length) > 2 ^ 64 - 1) :
    exec (o.instr p) s = .next (takeFault .overflow s) := by
  rcases ho with rfl | rfl
  · exact (exec_block_eq_overflow_iff hs (eq_of_beq hl)).2 hr
  · exact (exec_final_eq_overflow_iff hs (of_decide_eq_true hl)).2 hr

/-- Settles O31: the decoder's two checks come first, then the phase table, then the count. -/
theorem faultPriority : Obligations.FaultPriority := by
  intro s op len rest hf hc
  have hpacket : ∀ o, Op.ofByte op = some o → o.lenLegal len.toNat = true → len.toNat ≤ rest.length →
      step s = exec (o.instr (rest.take len.toNat)) (s.setCmd (rest.drop len.toNat)) := fun o hop hl hr =>
    step_of_packet hf (by rw [hc, decode_of_legal hop hl hr])
  refine ⟨step_of_reserved_byte hf hc, fun o => step_of_illegal_byte hf hc, fun o hop hl hr hphase => ?_,
    fun o d hop ho hl hr hs hroom => ?_⟩
  · rw [hpacket o hop hl hr]
    exact exec_unlisted (s := s.setCmd _) (wellFormed_of_legal hl hr) hf (by rwa [op_of_instr])
  · have hlen : (rest.take len.toNat).length = len.toNat := List.length_take_of_le hr
    rw [hpacket o hop hl hr]
    exact exec_overflow (s := s.setCmd _) ho (by rwa [hlen]) hs (by rwa [hlen])

/-- A command that leads to `FAULT` has taken a fault. -/
theorem execCase_fault {i : Instr} {s t : State} (hc : ExecCase i s t) (hs : s.phase ≠ .fault)
    (ht : t.phase = .fault) : ∃ c, t = takeFault c s := by
  cases hc with
  | discarded h => exact absurd h hs
  | faulted c => exact ⟨c, rfl⟩
  | init | block | final | extract => simp at ht

/-- A step that leads to `FAULT` has taken a fault, and before it the front of the command stream. -/
theorem step_fault_entry {s t : State} (hs : s.phase ≠ .fault) (h : step s = .next t) (ht : t.phase = .fault) :
    ∃ c taken, s.cmd = taken ++ t.cmd ∧ t = takeFault c (s.setCmd t.cmd) := by
  cases step_inv h with
  | discard hf => exact absurd hf hs
  | wait => exact absurd ht hs
  | reserved rest _ hd =>
    obtain ⟨op, len, hc, _⟩ := decode_eq_reservedOp_iff.1 hd
    exact ⟨.opcode, [op, len], hc, rfl⟩
  | illegal rest _ hd =>
    obtain ⟨op, len, o, hc, _⟩ := decode_eq_illegalLen_iff.1 hd
    exact ⟨.length, [op, len], hc, rfl⟩
  | run i rest _ _ hd hc =>
    obtain ⟨c, rfl⟩ := execCase_fault hc hs ht
    exact ⟨c, encode i, (encodeOfDecode _ _ _ hd).2, rfl⟩

/-- Settles O32, from fault entry and the fault codes. -/
theorem faultEntryRule : Obligations.FaultEntryRule := by
  intro s t hs h ht
  obtain ⟨c, taken, hcmd, he⟩ := step_fault_entry hs h ht
  refine ⟨c.byte, taken, byte_mem_codes c, hcmd, he, ?_, ?_⟩
  · rw [he]; rfl
  · rw [he]; rfl

end Sys2Proof.Machine
end

section
/-! PROOFS. The layout of the padded tail (42_finalize.md R81) and the block buffer (00_scope.md R8). -/

namespace Sys2Proof.Machine

/-- The length field is the last 8 bytes. -/
theorem paddedTail_drop_length (p : List Byte) (L : Count) :
    (paddedTail p L).drop ((paddedTail p L).length - 8) = be64Bytes L := by
  rw [paddedTail, List.length_append, be64Bytes_length, Nat.add_sub_cancel, List.drop_left]

/-- A tail of two blocks, cut between them. -/
theorem paddedTail_two_blocks {p : List Byte} (L : Count) (h : 56 ≤ p.length) (h' : p.length ≤ 63) :
    paddedTail p L = (p ++ [0x80] ++ List.replicate (63 - p.length) 0x00) ++ (List.replicate 56 0x00 ++ be64Bytes L) := by
  have hz : 119 - p.length = (63 - p.length) + 56 := by omega
  rw [paddedTail, zeroCount_of_ge h, hz, zeros, List.replicate_add]
  simp only [List.append_assoc]

/-- Settles O15, from the length of the tail and its cut into two blocks. -/
theorem paddedTailLayout : Obligations.PaddedTailLayout := by
  refine fun p L hp => ⟨fun h => ?_, fun h => ?_, paddedTail_drop_length p L⟩
  · rw [paddedTail_length p L hp, if_pos h]
  · have hfirst : (p ++ [0x80] ++ List.replicate (63 - p.length) 0x00).length = 64 := by simp; omega
    refine ⟨by rw [paddedTail_length p L hp, if_neg (by omega)], ?_, ?_⟩
    · rw [paddedTail_two_blocks L h hp, List.take_left' hfirst]
    · rw [paddedTail_two_blocks L h hp, List.drop_left' hfirst]

/-- `MemRead` in range, of bytes that are all there. -/
theorem memRead_ok {m : Memory} {x n : Nat} {bs : List Byte} (h : x + n ≤ 64) (hr : readBytes m x n = some bs) :
    memRead m x n = .ok bs := by
  simp [memRead, h, hr]

/-- Settles O16, from the laws of `writeBytes`. -/
theorem bufferReadAfterWrite : Obligations.BufferReadAfterWrite := by
  refine ⟨fun m addr v h => ?_, fun m addr v h => ⟨if_neg (Nat.not_le.2 h), if_neg (Nat.not_le.2 h)⟩⟩
  exact ⟨writeBytes m addr v, memWrite_ok h, memRead_ok h (readBytes_writeBytes m addr v),
    fun a => readByte_writeBytes_outside v m addr a, fun hwf => wf_writeBytes v hwf h⟩

end Sys2Proof.Machine
end

section
/-! PROOFS. The closed form of the digest (43_digest_driver.md R93) and the known answers. -/

namespace Sys2Proof.Machine

/-! ### The blocks of a byte sequence -/

/-- The full blocks of whole blocks with bytes behind them. -/
theorem fullBlocks_flatten_append {blocks : List (List Byte)} (hb : ∀ B ∈ blocks, B.length = 64) (bytes : List Byte) :
    fullBlocks (blocks.flatten ++ bytes) = blocks ++ fullBlocks bytes := by
  induction blocks with
  | nil => rfl
  | cons B blocks ih =>
    obtain ⟨hB, hb⟩ := List.forall_mem_cons.1 hb
    rw [List.flatten_cons, List.append_assoc, fullBlocks_of_le (by rw [List.length_append]; omega),
      List.take_left' hB, List.drop_left' hB, ih hb, List.cons_append]

/-- A byte sequence is its full blocks and the bytes after them. -/
theorem fullBlocks_flatten_lastPayload (m : List Byte) : (fullBlocks m).flatten ++ lastPayload m = m := by
  induction h : m.length / 64 generalizing m with
  | zero =>
    have hlt : m.length < 64 := by omega
    rw [fullBlocks_of_lt hlt, lastPayload, h]
    rfl
  | succ k ih =>
    have hge : 64 ≤ m.length := by omega
    have hk : (m.drop 64).length / 64 = k := by rw [List.length_drop]; omega
    have hlast : lastPayload m = lastPayload (m.drop 64) := by
      rw [lastPayload, lastPayload, List.drop_drop, hk, h, Nat.mul_succ, Nat.add_comm]
    rw [fullBlocks_of_le hge, hlast, List.flatten_cons, List.append_assoc, ih _ hk, List.take_append_drop]

/-- A tail of one block or two is folded block by block. -/
theorem foldTailAccum_eq_foldl (acc : Accum) {t : List Byte} (h : t.length = 64 ∨ t.length = 128) :
    foldTailAccum acc t = (fullBlocks t).foldl compress acc := by
  rcases h with h | h
  · have hrest : (t.drop 64).length < 64 := by rw [List.length_drop]; omega
    simp [foldTailAccum, h, fullBlocks_of_le h.ge, fullBlocks_of_lt hrest, List.take_of_length_le h.le]
  · have hsecond : (t.drop 64).length = 64 := by rw [List.length_drop]; omega
    have hrest : ((t.drop 64).drop 64).length < 64 := by rw [List.length_drop]; omega
    rw [foldTailAccum, if_neg (by omega), fullBlocks_of_le (by omega), fullBlocks_of_le hsecond.ge,
      fullBlocks_of_lt hrest, List.take_of_length_le hsecond.le]
    rfl

/-- The padded message is the full blocks of the message and the padded tail of the bytes after them
(42_finalize.md R80, 43_digest_driver.md R93). -/
theorem paddedMessage_eq (m : List Byte) :
    paddedMessage m =
      (fullBlocks m).flatten ++ paddedTail (lastPayload m) (BitVec.ofNat 64 (8 * m.length)) := by
  have hm := fullBlocks_flatten_lastPayload m
  rw [paddedMessage, paddedTail, lastPayload_length, Config.blockBytes]
  simp only [← List.append_assoc, hm]

/-- The closed form is what the engine freezes and hands out. -/
theorem digestSpec_eq (m : List Byte) : digestSpec m = digestBytes (frozenAccum m) := by
  have hlen := paddedTail_length (lastPayload m) (BitVec.ofNat 64 (8 * m.length)) (by rw [lastPayload_length]; omega)
  have htail : (paddedTail (lastPayload m) (BitVec.ofNat 64 (8 * m.length))).length = 64 ∨
      (paddedTail (lastPayload m) (BitVec.ofNat 64 (8 * m.length))).length = 128 := by
    rw [hlen]
    split
    · exact .inl rfl
    · exact .inr rfl
  rw [digestSpec, paddedMessage_eq, fullBlocks_flatten_append fun _ => length_of_mem_fullBlocks, List.foldl_append,
    frozenAccum, foldTailAccum_eq_foldl _ htail]

theorem digestSpec_length (m : List Byte) : (digestSpec m).length = 20 := digestBytes_length _

/-- Settles O46: the digest answered is the closed form. -/
theorem digestIsClosedForm : Obligations.DigestIsClosedForm := by
  intro m s hf hc hm
  obtain ⟨t, hrun, hs, hct, het⟩ := runDigest_ofBytes hf hc hm
  exact ⟨t, by rw [hrun, digestSpec_eq], digestSpec_length m, by rw [phase_def, hs, stage_phase_idle], hct, het⟩

/-- Settles O56, by computing the three digests. -/
theorem knownAnswers : Obligations.KnownAnswers := by
  unfold Obligations.KnownAnswers
  decide +kernel

end Sys2Proof.Machine
end

section
/-! PROOFS. `DIGEST` over any source, a failing one or one beyond `MAX_MSG_BITS` among them, and on an engine in `FAULT`
(43_digest_driver.md R94, R100, R101). -/

namespace Sys2Proof.Machine

/-! ### The commands of any source -/

/-- A read that delivers bytes takes them from the front of what is left, and no more than asked for. -/
theorem Source.read_bytes {src src' : Source} {n : Nat} {g : List Byte} (h : src.read n = (.bytes g, src')) :
    src.rest = g ++ src'.rest ∧ g.length ≤ n := by
  obtain ⟨rest, script⟩ := src
  have htake : ∀ k, k ≤ n → rest = rest.take k ++ rest.drop k ∧ (rest.take k).length ≤ n := fun k hk =>
    ⟨(List.take_append_drop k rest).symm, (List.length_take_le k rest).trans hk⟩
  match script, h with
  | [], h =>
    cases h
    exact htake _ (Nat.min_le_left _ _)
  | .count wish :: script, h =>
    cases h
    exact htake _ ((Nat.min_le_right _ _).trans (Nat.min_le_left _ _))
  | .ioError :: script, h => cases h

/-- A read of the inner loop asks for no more than the chunk is short of. -/
theorem askFor_le (gathered : Nat) (limit : Option Nat) : askFor gathered limit ≤ 64 - gathered := by
  cases limit with
  | none => exact Nat.le_refl _
  | some r => exact Nat.min_le_left _ _

/-- The inner loop fills the chunk from the front of what is left, to at most a block. -/
theorem gatherChunk_inv (turns : Nat) {src src' : Source} {limit limit' : Option Nat} {chunk c : List Byte}
    (hlen : chunk.length ≤ 64) (h : gatherChunk turns src limit chunk = .chunk c src' limit') :
    c.length ≤ 64 ∧ ∃ g, c = chunk ++ g ∧ src.rest = g ++ src'.rest := by
  induction turns generalizing src limit chunk with
  | zero =>
    cases h
    exact ⟨hlen, [], (List.append_nil _).symm, rfl⟩
  | succ turns ih =>
    rw [gatherChunk] at h
    split at h
    case isFalse =>
      cases h
      exact ⟨hlen, [], (List.append_nil _).symm, rfl⟩
    case isTrue hroom =>
      split at h
      case h_1 => cases h
      case h_2 g src₁ hread =>
        obtain ⟨hrest, hg⟩ := Source.read_bytes hread
        have hask := askFor_le chunk.length limit
        split at h
        case isTrue hnil =>
          cases h
          exact ⟨hlen, [], (List.append_nil _).symm, by rw [hrest, hnil]⟩
        case isFalse =>
          obtain ⟨hc, g', rfl, hrest'⟩ := ih (by rw [List.length_append]; omega) h
          exact ⟨hc, g ++ g', by rw [List.append_assoc], by rw [hrest, hrest', List.append_assoc]⟩

/-- The commands after `INIT`: full blocks from the front of what is left, and then, unless a read has failed, `FINAL` and
`EXTRACT`. -/
inductive LoopPlan (bytes : List Byte) : DigestPlan → Prop where
  | failed (blocks : List (List Byte)) (hb : ∀ B ∈ blocks, B.length = 64) (hp : blocks.flatten <+: bytes) :
      LoopPlan bytes ⟨blocks.map .block, true⟩
  | whole (blocks : List (List Byte)) (last : List Byte) (hb : ∀ B ∈ blocks, B.length = 64) (hl : last.length ≤ 63) :
      LoopPlan bytes ⟨blocks.map .block ++ [.final last, .extract], false⟩

/-- A full block in front of the later commands. -/
theorem LoopPlan.cons {B bytes : List Byte} {plan : DigestPlan} (hB : B.length = 64) (h : LoopPlan bytes plan) :
    LoopPlan (B ++ bytes) ⟨.block B :: plan.cmds, plan.ioError⟩ := by
  cases h with
  | failed blocks hb hp =>
    exact .failed (B :: blocks) (List.forall_mem_cons.2 ⟨hB, hb⟩) ((List.prefix_append_right_inj B).2 hp)
  | whole blocks last hb hl => exact .whole (B :: blocks) last (List.forall_mem_cons.2 ⟨hB, hb⟩) hl

/-- With a turn for each full block and one for the rest, the outer loop issues such commands over any source. -/
theorem digestLoop_plan (turns : Nat) (src : Source) (limit : Option Nat) (ht : src.rest.length / 64 < turns) :
    LoopPlan src.rest (digestLoop turns src limit) := by
  induction turns generalizing src limit with
  | zero => exact absurd ht (Nat.not_lt_zero _)
  | succ turns ih =>
    rw [digestLoop]
    split
    case h_1 => exact .failed [] (fun _ h => nomatch h) (List.nil_prefix)
    case h_2 c src' limit' hchunk =>
      obtain ⟨hc, g, rfl, hrest⟩ := gatherChunk_inv _ (Nat.zero_le _) hchunk
      split
      case isTrue hfull =>
        have hleft : src.rest.length = 64 + src'.rest.length := by
          rw [hrest, List.length_append, hfull]
        rw [hrest]
        exact .cons hfull (ih src' limit' (by omega))
      case isFalse hshort =>
        rw [Config.blockBytes_eq] at hshort
        exact .whole [] c (fun _ h => nomatch h) (by omega)

/-- The plan of `DIGEST` is `INIT` and the commands of its loop. -/
theorem digestPlan_eq (src : Source) (limit : Option Nat) :
    ∃ plan, LoopPlan src.rest plan ∧ digestPlan src limit = ⟨.init :: plan.cmds, plan.ioError⟩ :=
  ⟨_, digestLoop_plan _ src limit (Nat.lt_succ_self _), rfl⟩

/-! ### The result -/

/-- A response that is not `OK` makes the result `noResponse`. -/
theorem digestResult_of_not_ok {rs : List (List Byte)} {r : List Byte} (hr : r ∈ rs) (h : r.head? ≠ some statusOk)
    (ioError : Bool) : digestResult ioError rs = .noResponse := by
  rw [digestResult, if_neg]
  intro hall
  exact h (eq_of_beq (List.all_eq_true.1 hall r hr))

/-- Where all responses are `OK`, a failed source gives `NoDigest`, and the last response is read otherwise. -/
theorem digestResult_of_ok {rs : List (List Byte)} (h : ∀ r ∈ rs, r.head? = some statusOk) (ioError : Bool) :
    digestResult ioError rs = if ioError then .noDigest else digestOfResponse (rs.getLastD []) := by
  rw [digestResult, if_pos]
  exact List.all_eq_true.2 fun r hr => beq_iff_eq.2 (h r hr)

/-- What `DIGEST` answers, from its plan and the responses. -/
theorem runDigest_of_issueAll {src : Source} {limit : Option Nat} {plan : DigestPlan} {s t : State}
    {rs : List (List Byte)} (hplan : digestPlan src limit = plan) (h : issueAll plan.cmds s = .next (rs, t)) :
    runDigest src limit s = .next (digestResult plan.ioError rs, t) := by
  simp only [runDigest, hplan, h]

/-! ### In `FAULT` -/

/-- In `FAULT` a command issued is discarded with all that is pending. -/
theorem issue_fault {s : State} (h : s.phase = .fault) (i : Instr) : issue i s = .next ([], s.setCmd []) := by
  have hstep : step (hostAppend (encode i) s) = .next (s.setCmd []) := step_fault (s := hostAppend (encode i) s) h
  have hnew : newBytes s (s.setCmd []) = [] := newBytes_of_append (List.append_nil _).symm
  simp only [issue, hstep, hnew]

/-- Discarding nothing changes nothing. -/
theorem setCmd_nil_of_empty {s : State} (hc : s.cmd = []) : s.setCmd [] = s := by
  rw [← hc, setCmd_self]

/-- In `FAULT` commands issued get empty responses. -/
theorem issueAll_fault {s : State} (h : s.phase = .fault) (hc : s.cmd = []) (is : List Instr) :
    issueAll is s = .next (List.replicate is.length [], s) := by
  induction is with
  | nil => rfl
  | cons i is ih =>
    have hissue := issue_fault h i
    rw [setCmd_nil_of_empty hc] at hissue
    exact issueAll_cons hissue ih

/-- Settles O52: `INIT` gets the first of the empty responses. -/
theorem digestInFaultGetsNothing : Obligations.DigestInFaultGetsNothing := by
  intro src limit s hs
  obtain ⟨plan, _, hplan⟩ := digestPlan_eq src limit
  have hall := issueAll_cons (issue_fault hs .init) (issueAll_fault (s := s.setCmd []) hs rfl plan.cmds)
  rw [runDigest_of_issueAll hplan hall, digestResult_of_not_ok List.mem_cons_self (by simp)]
  rfl

/-! ### A failing source -/

/-- The bytes of `k` blocks. -/
theorem flatten_length_of_blocks {blocks : List (List Byte)} (hb : ∀ B ∈ blocks, B.length = 64) :
    blocks.flatten.length = 64 * blocks.length := by
  rw [List.length_flatten, List.map_congr_left hb, List.map_const', List.sum_replicate, smul_eq_mul, Nat.mul_comm]

/-- Settles O50: the blocks are bytes of the source, so the count has room for them, and all are accepted. -/
theorem ioErrorGivesNoDigest : Obligations.IOErrorGivesNoDigest := by
  intro src limit s hf hc hroom hio
  obtain ⟨plan, hloop, hplan⟩ := digestPlan_eq src limit
  rw [hplan] at hio ⊢
  cases hloop with
  | whole => cases hio
  | failed blocks hb hp =>
    refine ⟨⟨blocks, rfl, hb, hp⟩, ?_⟩
    have hlen : 64 * blocks.length ≤ src.rest.length := flatten_length_of_blocks hb ▸ hp.length_le
    obtain ⟨rs, t, L, hall, _, hs, hrs, _, he⟩ := stateAfterBlocks s blocks hf hc hb (by omega)
    refine ⟨t, ?_, by rw [phase_def, hs, stage_phase_active], he⟩
    rw [runDigest_of_issueAll hplan hall, digestResult_of_ok, if_pos rfl]
    intro r hr
    rw [hrs] at hr
    rw [List.eq_of_mem_replicate hr]
    rfl

/-! ### A message beyond `MAX_MSG_BITS` -/

/-- Issued with no packet pending, a legal command executes. -/
theorem issue_eq {i : Instr} {s t : State} (hw : i.wellFormed = true) (hf : s.phase ≠ .fault) (hc : s.cmd = [])
    (he : exec i s = .next t) : issue i s = .next (newBytes s t, t) := by
  have hcmd : (hostAppend (encode i) s).cmd = encode i ++ [] := by simp [hc]
  have hclear : (hostAppend (encode i) s).setCmd [] = s := setCmd_nil_of_empty hc
  have hstep : step (hostAppend (encode i) s) = .next t := by
    rw [step_encode_append (s := hostAppend (encode i) s) hw hf hcmd, hclear, he]
  simp only [issue, hstep]

/-- The `2^55`-th block overflows the count (60_exceptions.md R110). -/
theorem issue_block_overflow {s : State} {d : DigestState} {B : List Byte} (hs : s.stage = .active d) (hc : s.cmd = [])
    (hB : B.length = 64) (hr : d.bitlen.toNat + 512 > 2 ^ 64 - 1) :
    issue (.block B) s = .next ([FaultCode.overflow.byte], takeFault .overflow s) := by
  have hw : (Instr.block B).wellFormed = true := beq_iff_eq.2 hB
  have hf : s.phase ≠ .fault := by simp [phase_def, hs]
  rw [issue_eq hw hf hc ((exec_block_eq_overflow_iff hs hB).2 hr),
    newBytes_of_append (takeFault_resp s .overflow)]

/-- Of more than `n` blocks, `n` blocks, the next one, and the rest. -/
theorem exists_split_at {blocks : List (List Byte)} {n : Nat} (h : n < blocks.length) :
    ∃ front B back, blocks = front ++ B :: back ∧ front.length = n :=
  ⟨blocks.take n, blocks[n], blocks.drop (n + 1), by rw [← List.drop_eq_getElem_cons h, List.take_append_drop],
    List.length_take_of_le h.le⟩

/-- Settles O51: the blocks before the `2^55`-th fill the count, that one overflows it, and what follows is discarded. -/
theorem tooLongStreamFaults : Obligations.TooLongStreamFaults := by
  intro m s hf hc hm
  have hcount : 2 ^ 55 - 1 < (fullBlocks m).length := by rw [fullBlocks_length]; omega
  obtain ⟨front, B, back, hsplit, hfront⟩ := exists_split_at hcount
  have hlen : ∀ C ∈ front ++ B :: back, C.length = 64 := hsplit ▸ fun _ => length_of_mem_fullBlocks
  obtain ⟨hbf, hbb⟩ := List.forall_mem_append.1 hlen
  have hB : B.length = 64 := hbb B List.mem_cons_self
  obtain ⟨rs, t, L, hall, hL, hs, _, hct, _⟩ := stateAfterBlocks s front hf hc hbf (by omega)
  have hover := issue_block_overflow hs hct hB (by rw [hL]; omega)
  obtain ⟨later, hcmds⟩ : ∃ later, (digestPlan (Source.ofBytes m) none).cmds =
      (.init :: front.map .block) ++ .block B :: later :=
    ⟨back.map .block ++ [.final (lastPayload m), .extract], by
      rw [digestPlan_ofBytes, digestCommands_eq, absorbCommands, hsplit]
      simp⟩
  have hrun := issueAll_append hall
    (issueAll_cons hover (issueAll_fault (s := takeFault .overflow t) rfl hct later))
  rw [← hcmds] at hrun
  refine ⟨takeFault .overflow t, ?_, rfl, rfl⟩
  rw [runDigest_of_issueAll rfl hrun,
    digestResult_of_not_ok (List.mem_append_right _ List.mem_cons_self) (by decide)]

/-! ### The phase `DIGEST` leaves -/

/-- The phase an accepted command leaves the engine in (10_state.md R15). -/
def phaseAfter : Op → Phase
  | .init => .active
  | .block => .active
  | .final => .frozen
  | .extract => .idle

theorem phaseAfter_ne_fault (op : Op) : phaseAfter op ≠ .fault := by
  cases op <;> decide

/-- What a command issued outside `FAULT` leads to: a fault, answered with its code, or acceptance, answered `OK`, with 20
bytes behind it for `EXTRACT`. -/
inductive IssueCase (i : Instr) (t : State) : List Byte → Prop where
  | faulted (c : FaultCode) (ht : t.phase = .fault) : IssueCase i t [c.byte]
  | accepted (d : List Byte) (ht : t.phase = phaseAfter i.op) (hd : i = .extract → d.length = 20) :
      IssueCase i t (statusOk :: d)

/-- A command executed outside `FAULT` is answered so. -/
theorem execCase_issue {i : Instr} {s t : State} (hf : s.phase ≠ .fault) (h : ExecCase i s t) :
    ∃ r, t.resp = s.resp ++ r ∧ IssueCase i t r := by
  cases h with
  | discarded h => exact absurd h hf
  | faulted c => exact ⟨_, rfl, .faulted c rfl⟩
  | init e => exact ⟨_, rfl, .accepted [] (by rw [e]; rfl) (by simp [e])⟩
  | block p d e => exact ⟨_, rfl, .accepted [] (by rw [e]; rfl) (by simp [e])⟩
  | final p d e => exact ⟨_, rfl, .accepted [] (by rw [e]; rfl) (by simp [e])⟩
  | extract d e => exact ⟨_, rfl, .accepted _ (by rw [e]; rfl) fun _ => digestBytes_length _⟩

/-- A legal command issued outside `FAULT` with no packet pending is answered so. -/
theorem issue_case {i : Instr} {s : State} (hw : i.wellFormed = true) (hf : s.phase ≠ .fault) (hc : s.cmd = []) :
    ∃ r t, issue i s = .next (r, t) ∧ t.cmd = [] ∧ IssueCase i t r := by
  obtain ⟨t, he, hcase⟩ := exec_case i s
  obtain ⟨r, hr, hi⟩ := execCase_issue hf hcase
  exact ⟨r, t, by rw [issue_eq hw hf hc he, newBytes_of_append hr], (execCase_cmd hcase).trans hc, hi⟩

/-- No fault code is the status `OK`. -/
theorem head?_code_ne_ok (c : FaultCode) : [c.byte].head? ≠ some statusOk := by
  cases c <;> decide

/-- Legal commands issued outside `FAULT` with no packet pending: one of them faults and the engine stays in `FAULT`, or all
are answered `OK` and it does not enter `FAULT`. -/
theorem issueAll_case (is : List Instr) {s : State} (hw : ∀ i ∈ is, i.wellFormed = true) (hf : s.phase ≠ .fault)
    (hc : s.cmd = []) :
    ∃ rs t, issueAll is s = .next (rs, t) ∧ t.cmd = [] ∧
      ((∃ r ∈ rs, r.head? ≠ some statusOk) ∧ t.phase = .fault ∨
        (∀ r ∈ rs, r.head? = some statusOk) ∧ t.phase ≠ .fault) := by
  induction is generalizing s with
  | nil => exact ⟨[], s, rfl, hc, .inr ⟨(fun _ h => nomatch h), hf⟩⟩
  | cons i is ih =>
    obtain ⟨hwi, hw⟩ := List.forall_mem_cons.1 hw
    obtain ⟨r, t, hissue, hct, hcase⟩ := issue_case hwi hf hc
    cases hcase with
    | faulted c ht =>
      exact ⟨_, t, issueAll_cons hissue (issueAll_fault ht hct is), hct,
        .inl ⟨⟨_, List.mem_cons_self, head?_code_ne_ok c⟩, ht⟩⟩
    | accepted d ht =>
      obtain ⟨rs, u, hall, hcu, hrs⟩ := ih hw (ht ▸ phaseAfter_ne_fault i.op) hct
      refine ⟨_, u, issueAll_cons hissue hall, hcu, hrs.imp ?_ ?_⟩
      · rintro ⟨⟨r, hr, hne⟩, hu⟩
        exact ⟨⟨r, List.mem_cons_of_mem _ hr, hne⟩, hu⟩
      · rintro ⟨hok, hu⟩
        exact ⟨List.forall_mem_cons.2 ⟨rfl, hok⟩, hu⟩

/-- The same, with the last of the commands named: where all are accepted, it decides the phase and the last response. -/
theorem issueAll_concat_case (is : List Instr) {i : Instr} {s : State} (hw : ∀ j ∈ is ++ [i], j.wellFormed = true)
    (hf : s.phase ≠ .fault) (hc : s.cmd = []) :
    ∃ rs t, issueAll (is ++ [i]) s = .next (rs, t) ∧
      ((∃ r ∈ rs, r.head? ≠ some statusOk) ∧ t.phase = .fault ∨
        (∀ r ∈ rs, r.head? = some statusOk) ∧ t.phase = phaseAfter i.op ∧
          ∃ d, rs.getLastD [] = statusOk :: d ∧ (i = .extract → d.length = 20)) := by
  obtain ⟨hws, hwi⟩ := List.forall_mem_append.1 hw
  obtain ⟨rs, u, hall, hcu, ⟨⟨r, hr, hne⟩, hu⟩ | ⟨hok, hu⟩⟩ := issueAll_case is hws hf hc
  · exact ⟨_, u, issueAll_append hall (issueAll_fault hu hcu [i]),
      .inl ⟨⟨r, List.mem_append_left _ hr, hne⟩, hu⟩⟩
  · obtain ⟨r, t, hissue, hct, hcase⟩ := issue_case (hwi i List.mem_cons_self) hu hcu
    have hrun := issueAll_append hall (issueAll_cons hissue (issueAll_nil t))
    cases hcase with
    | faulted c ht =>
      exact ⟨_, t, hrun, .inl ⟨⟨_, List.mem_append_right _ List.mem_cons_self, head?_code_ne_ok c⟩, ht⟩⟩
    | accepted d ht hd =>
      refine ⟨_, t, hrun, .inr ⟨List.forall_mem_append.2 ⟨hok, ?_⟩, ht, d, by simp, hd⟩⟩
      exact List.forall_mem_cons.2 ⟨rfl, fun _ h => nomatch h⟩

/-- `INIT` and full blocks, with the last of these commands named. -/
theorem exists_last_of_blocks (blocks : List (List Byte)) :
    ∃ is i, Instr.init :: blocks.map .block = is ++ [i] ∧ phaseAfter i.op = .active := by
  rcases List.eq_nil_or_concat blocks with rfl | ⟨front, B, rfl⟩
  · exact ⟨[], .init, rfl, rfl⟩
  · exact ⟨.init :: front.map .block, .block B, by simp, rfl⟩

/-- `INIT` and full blocks are legal commands. -/
theorem wellFormed_of_mem_blocks {blocks : List (List Byte)} (hb : ∀ B ∈ blocks, B.length = 64) :
    ∀ i ∈ Instr.init :: blocks.map .block, i.wellFormed = true := by
  refine List.forall_mem_cons.2 ⟨rfl, fun i hi => ?_⟩
  obtain ⟨B, hB, rfl⟩ := List.mem_map.1 hi
  exact beq_iff_eq.2 (hb B hB)

/-- A result of `DIGEST` and the phase it leaves. -/
inductive ResultPhase : DigestResult → Phase → Prop where
  | digest (d : List Byte) (h : d.length = 20) : ResultPhase (.digest d) .idle
  | noDigest : ResultPhase .noDigest .active
  | noResponse : ResultPhase .noResponse .fault

/-- Started outside `FAULT` with no packet pending, `DIGEST` over any source leaves the phase of its result: the last command
issued is `EXTRACT`, or, after a failed read, `INIT` or a `BLOCK`. -/
theorem runDigest_resultPhase (src : Source) (limit : Option Nat) {s : State} (hf : s.phase ≠ .fault)
    (hc : s.cmd = []) : ∃ r t, runDigest src limit s = .next (r, t) ∧ ResultPhase r t.phase := by
  obtain ⟨plan, hloop, hplan⟩ := digestPlan_eq src limit
  cases hloop with
  | failed blocks hb =>
    obtain ⟨is, i, hcmds, hi⟩ := exists_last_of_blocks blocks
    have hw := wellFormed_of_mem_blocks hb
    rw [hcmds] at hw hplan
    obtain ⟨rs, t, hall, ⟨⟨r, hr, hne⟩, ht⟩ | ⟨hok, ht, _⟩⟩ := issueAll_concat_case is hw hf hc
    · refine ⟨_, t, runDigest_of_issueAll hplan hall, ?_⟩
      rw [digestResult_of_not_ok hr hne, ht]
      exact .noResponse
    · refine ⟨_, t, runDigest_of_issueAll hplan hall, ?_⟩
      rw [digestResult_of_ok hok, if_pos rfl, ht, hi]
      exact .noDigest
  | whole blocks last hb hl =>
    have hcmds : Instr.init :: (blocks.map Instr.block ++ [.final last, .extract]) =
        (Instr.init :: blocks.map .block ++ [.final last]) ++ [.extract] := by simp
    have hw : ∀ i ∈ (Instr.init :: blocks.map .block ++ [.final last]) ++ [.extract], i.wellFormed = true := by
      have hlast : (Instr.final last).wellFormed = true := decide_eq_true hl
      have hblocks := wellFormed_of_mem_blocks hb
      simp only [List.forall_mem_append, List.forall_mem_singleton]
      exact ⟨⟨hblocks, hlast⟩, rfl⟩
    rw [hcmds] at hplan
    obtain ⟨rs, t, hall, ⟨⟨r, hr, hne⟩, ht⟩ | ⟨hok, ht, d, hlast, hd⟩⟩ := issueAll_concat_case _ hw hf hc
    · refine ⟨_, t, runDigest_of_issueAll hplan hall, ?_⟩
      rw [digestResult_of_not_ok hr hne, ht]
      exact .noResponse
    · refine ⟨_, t, runDigest_of_issueAll hplan hall, ?_⟩
      have hdigest : digestOfResponse (statusOk :: d) = .digest d := if_pos ⟨rfl, hd rfl⟩
      rw [digestResult_of_ok hok, if_neg Bool.false_ne_true, hlast, hdigest, ht]
      exact .digest d (hd rfl)

/-- Settles O53: in `FAULT` nothing is answered, and elsewhere the phase is that of the result. -/
theorem digestReturnsInPhase : Obligations.DigestReturnsInPhase := by
  intro src limit s t r hc h
  by_cases hf : s.phase = .fault
  · rw [digestInFaultGetsNothing src limit s hf] at h
    cases h
    exact ⟨(fun _ e => nomatch e), (fun e => nomatch e), fun _ => hf⟩
  · obtain ⟨r', t', hrun, hphase⟩ := runDigest_resultPhase src limit hf hc
    rw [hrun] at h
    cases h
    generalize hp : t.phase = p at hphase
    cases hphase with
    | digest d hd => exact ⟨fun _ e => by cases e; exact ⟨hf, rfl, hd⟩, (fun e => nomatch e), (fun e => nomatch e)⟩
    | noDigest => exact ⟨(fun _ e => nomatch e), fun _ => ⟨hf, rfl⟩, (fun e => nomatch e)⟩
    | noResponse => exact ⟨(fun _ e => nomatch e), (fun e => nomatch e), fun _ => rfl⟩

end Sys2Proof.Machine
end

section
/-! PROOFS. Lawful command sequences run to completion (60_exceptions.md R109), and what a digest computation completed
within a run has answered (70_reset_and_hazards.md R126). -/

namespace Sys2Proof.Machine

open Sys2Proof.Safety

/-! ### Lawful sequences -/

/-- A pair listed in the phase table leads to the phase its command leaves. -/
theorem eq_phaseAfter_of_listed {p q : Phase} {op : Op} (h : phaseTable p op = some q) : q = phaseAfter op := by
  cases p <;> cases op <;> cases h <;> rfl

/-- Nothing is listed in `FAULT`. -/
theorem ne_fault_of_listed {p q : Phase} {op : Op} (h : phaseTable p op = some q) : p ≠ .fault := by
  rintro rfl
  cases h

/-- A lawful sequence, command by command. -/
theorem lawful_cons_iff {p : Phase} {n : Nat} {i : Instr} {is : List Instr} :
    lawful p n (i :: is) = true ↔ ∃ q, phaseTable p i.op = some q ∧ i.wellFormed = true ∧
      bitsAfter i n ≤ 2 ^ 64 - 1 ∧ lawful q (bitsAfter i n) is = true := by
  rw [lawful]
  cases phaseTable p i.op with
  | none => simp
  | some q => simp [and_assoc]

/-- The blocks of a message in front of the later commands. -/
theorem lawful_blocks {blocks : List (List Byte)} (hb : ∀ B ∈ blocks, B.length = 64) {n : Nat}
    (hm : n + 512 * blocks.length ≤ 2 ^ 64 - 1) {is : List Instr}
    (h : lawful .active (n + 512 * blocks.length) is = true) : lawful .active n (blocks.map .block ++ is) = true := by
  induction blocks generalizing n with
  | nil => exact h
  | cons B blocks ih =>
    obtain ⟨hB, hb⟩ := List.forall_mem_cons.1 hb
    rw [List.length_cons, Nat.mul_succ, ← Nat.add_assoc, Nat.add_right_comm] at hm h
    exact lawful_cons_iff.2 ⟨.active, rfl, beq_iff_eq.2 hB, (Nat.le_add_right _ _).trans hm, ih hb hm h⟩

/-- The commands of a message within `MAX_MSG_BITS` are lawful in every phase but `FAULT`, and leave `IDLE`. -/
theorem lawful_digestCommands {m : List Byte} (hm : 8 * m.length ≤ 2 ^ 64 - 1) {p : Phase} (hp : p ≠ .fault) (n : Nat)
    {is : List Instr} (h : lawful .idle (8 * m.length) is = true) : lawful p n (digestCommands m ++ is) = true := by
  have hlast : (lastPayload m).length ≤ 63 := by rw [lastPayload_length]; omega
  have hcount : 512 * (m.length / 64) + 8 * (lastPayload m).length = 8 * m.length := by rw [lastPayload_length]; omega
  have htail : lawful .active (0 + 512 * (fullBlocks m).length) (.final (lastPayload m) :: .extract :: is) = true := by
    rw [Nat.zero_add, fullBlocks_length]
    refine lawful_cons_iff.2 ⟨.frozen, rfl, decide_eq_true hlast, ?_, lawful_cons_iff.2 ⟨.idle, rfl, rfl, ?_, ?_⟩⟩
    · exact hcount.trans_le hm
    · exact hcount.trans_le hm
    · simpa only [bitsAfter, hcount] using h
  rw [digestCommands_eq, absorbCommands, List.cons_append, List.append_assoc]
  refine lawful_cons_iff.2 ⟨.active, phaseTable_init hp, rfl, Nat.zero_le _, ?_⟩
  exact lawful_blocks (fun _ => length_of_mem_fullBlocks) (by rw [bitsAfter, fullBlocks_length]; omega) htail

/-- The commands of messages within `MAX_MSG_BITS`, one after the other. -/
theorem lawful_messages {messages : List (List Byte)} (hm : ∀ m ∈ messages, 8 * m.length ≤ 2 ^ 64 - 1) {p : Phase}
    (hp : p ≠ .fault) (n : Nat) : lawful p n (messages.flatMap digestCommands) = true := by
  induction messages generalizing p n with
  | nil => rfl
  | cons m messages ih =>
    obtain ⟨hfirst, hm⟩ := List.forall_mem_cons.1 hm
    rw [List.flatMap_cons]
    exact lawful_digestCommands hfirst hp n (ih hm (by decide) _)

/-- Behind lawful commands, commands that are lawful wherever those may end. -/
theorem lawful_append {is js : List Instr} {p : Phase} {n : Nat} (hp : p ≠ .fault) (h : lawful p n is = true)
    (hjs : ∀ q k, q ≠ .fault → lawful q k js = true) : lawful p n (is ++ js) = true := by
  induction is generalizing p n with
  | nil => exact hjs p n hp
  | cons i is ih =>
    obtain ⟨q, hq, hw, hbits, hrest⟩ := lawful_cons_iff.1 h
    have hne : q ≠ .fault := eq_phaseAfter_of_listed hq ▸ phaseAfter_ne_fault i.op
    exact lawful_cons_iff.2 ⟨q, hq, hw, hbits, ih hne hrest⟩

/-! ### Lawful sequences are answered -/

/-- While absorbing, `BITLEN` is this count. -/
def CountIs (n : Nat) (s : State) : Prop := ∀ d, s.stage = .active d → d.bitlen.toNat = n

/-- A listed command with room in the count is accepted and answered, and counts its bits. -/
theorem exec_lawful {i : Instr} {s : State} {n : Nat} {q : Phase} (hq : phaseTable s.phase i.op = some q)
    (hw : i.wellFormed = true) (hn : CountIs n s) (hm : bitsAfter i n ≤ 2 ^ 64 - 1) :
    ∃ r t, exec i s = .next t ∧ t.phase = q ∧ t.resp = s.resp ++ r ∧ r ≠ [] ∧ CountIs (bitsAfter i n) t := by
  have hf := ne_fault_of_listed hq
  obtain rfl := eq_phaseAfter_of_listed hq
  cases i with
  | init =>
    refine ⟨_, _, exec_init hf, rfl, rfl, by simp, fun d hd => ?_⟩
    cases hd
    rfl
  | block p =>
    have ha : s.phase = .active := by simpa [Instr.op, phaseTable_block, phaseAfter] using hq
    obtain ⟨d, hs⟩ := (phase_eq_active s).1 ha
    have hcount := hn d hs
    have hr : d.bitlen.toNat + 512 ≤ 2 ^ 64 - 1 := hcount ▸ hm
    refine ⟨_, _, exec_block_active hs (eq_of_beq hw) hr, rfl, rfl, by simp, fun d' hd => ?_⟩
    cases hd
    rw [toNat_add_512 hr, hcount]
    rfl
  | final p =>
    have ha : s.phase = .active := by simpa [Instr.op, phaseTable_final, phaseAfter] using hq
    obtain ⟨d, hs⟩ := (phase_eq_active s).1 ha
    have hr : d.bitlen.toNat + 8 * p.length ≤ 2 ^ 64 - 1 := hn d hs ▸ hm
    exact ⟨_, _, exec_final_active hs (of_decide_eq_true hw) hr, rfl, rfl, by simp, fun d' hd => by cases hd⟩
  | extract =>
    have hz : s.phase = .frozen := by simpa [Instr.op, phaseTable_extract, phaseAfter] using hq
    obtain ⟨d, hs⟩ := (phase_eq_frozen s).1 hz
    exact ⟨_, _, exec_extract_frozen hs, rfl, rfl, by simp, fun d' hd => by cases hd⟩

/-- With the packets of a lawful sequence at the front of the command stream, all its commands are answered. -/
theorem answersAll_of_lawful (is : List Instr) {s : State} {n : Nat} {after : List Byte}
    (h : lawful s.phase n is = true) (hn : CountIs n s) (hc : s.cmd = is.flatMap encode ++ after) :
    ∃ t, AnswersAll is s t ∧ t.cmd = after := by
  induction is generalizing s n with
  | nil => exact ⟨s, rfl, hc⟩
  | cons i is ih =>
    obtain ⟨q, hq, hw, hbits, hrest⟩ := lawful_cons_iff.1 h
    have hf := ne_fault_of_listed hq
    rw [List.flatMap_cons, List.append_assoc] at hc
    obtain ⟨r, t, he, rfl, hresp, hr, hn'⟩ := exec_lawful (s := s.setCmd (is.flatMap encode ++ after)) hq hw hn hbits
    have hct : t.cmd = is.flatMap encode ++ after := execCase_cmd (exec_inv he)
    have htf : t.phase ≠ .fault := eq_phaseAfter_of_listed hq ▸ phaseAfter_ne_fault i.op
    have hanswers : Answers i r s t :=
      ⟨hf, htf, by rw [hc, hct, decode_encode_append hw], (step_encode_append hw hf hc).trans he, hresp, hr⟩
    obtain ⟨u, hu, hcu⟩ := ih hrest hn' hct
    exact ⟨u, ⟨r, t, hanswers, hu⟩, hcu⟩

/-- Commands answered one after the other until the command stream is empty are a completed run. -/
theorem completesFrom_of_answersAll {is : List Instr} {s t : State} (hf : s.phase ≠ .fault) (h : AnswersAll is s t)
    (hc : t.cmd = []) : CompletesFrom s := by
  induction is generalizing s with
  | nil =>
    obtain rfl : s = t := h
    exact .done s hf hc
  | cons i is ih =>
    obtain ⟨r, u, ⟨_, huf, hd, hstep, hresp, hr⟩, hrest⟩ := h
    have hlonger : s.resp.length < u.resp.length := by
      rw [hresp, List.length_append]
      exact Nat.lt_add_of_pos_right (List.length_pos_of_ne_nil hr)
    exact .packet s u i u.cmd hf hd hstep rfl hlonger (ih huf hrest)

/-- The packets of a lawful sequence given to an engine after reset are all answered, and what is behind them is left. -/
theorem answersAll_of_reset {is : List Instr} (h : lawful .idle 0 is = true) (after : List Byte) :
    ∃ t, AnswersAll is (hostAppend (is.flatMap encode ++ after) State.reset) t ∧ t.cmd = after :=
  answersAll_of_lawful is (s := hostAppend (is.flatMap encode ++ after) State.reset) h (fun _ hd => by cases hd) rfl

/-- The packets of a lawful sequence are a completed run. -/
theorem runCompletes_of_lawful {is : List Instr} (h : lawful .idle 0 is = true) : RunCompletes (is.flatMap encode) := by
  obtain ⟨t, ht, hc⟩ := answersAll_of_reset h []
  rw [List.append_nil] at ht
  have hidle : (hostAppend (is.flatMap encode) State.reset).phase ≠ .fault := show Phase.idle ≠ .fault by decide
  exact completesFrom_of_answersAll hidle ht hc

/-- Settles O54: the commands of messages are a lawful sequence. -/
theorem lawfulRunsComplete : Obligations.LawfulRunsComplete :=
  ⟨fun _ hm => runCompletes_of_lawful (lawful_messages hm (by decide) 0), fun _ => runCompletes_of_lawful⟩

/-! ### What an accepted command has done -/

section
variable {s t : State} (hf : s.phase ≠ .fault) (ht : t.phase ≠ .fault)
include hf ht

/-- An accepted `INIT` has set the initial constants and a zero count. -/
theorem execCase_init (h : ExecCase .init s t) : t.stage = .active ⟨initialAccum, 0⟩ := by
  cases h with
  | discarded h => exact absurd h hf
  | faulted c => exact absurd rfl ht
  | init => rfl
  | block _ _ e | final _ _ e | extract _ e => cases e

/-- An accepted `BLOCK` has folded 64 bytes and counted them. -/
theorem execCase_block {B : List Byte} {d : DigestState} (hs : s.stage = .active d) (h : ExecCase (.block B) s t) :
    B.length = 64 ∧ ∃ L : Count, L.toNat = d.bitlen.toNat + 512 ∧ t.stage = .active ⟨compress d.acc B, L⟩ := by
  cases h with
  | discarded h => exact absurd h hf
  | faulted c => exact absurd rfl ht
  | block p d' e hp hs' hr =>
    cases e
    obtain rfl : d = d' := by simpa [hs] using hs'
    exact ⟨hp, _, toNat_add_512 hr, rfl⟩
  | init e | final _ _ e | extract _ e => cases e

/-- An accepted `FINAL` has folded the padded tail of at most 63 bytes. -/
theorem execCase_final {p : List Byte} {d : DigestState} (hs : s.stage = .active d) (h : ExecCase (.final p) s t) :
    p.length ≤ 63 ∧
      t.stage = .frozen ⟨foldTailAccum d.acc (paddedTail p (d.bitlen + payloadBits (Instr.final p).len)),
        d.bitlen + payloadBits (Instr.final p).len⟩ := by
  cases h with
  | discarded h => exact absurd h hf
  | faulted c => exact absurd rfl ht
  | final p' d' e hp hs' =>
    cases e
    obtain rfl : d = d' := by simpa [hs] using hs'
    exact ⟨hp, rfl⟩
  | init e | block _ _ e | extract _ e => cases e

/-- An accepted `EXTRACT` has handed out the digest bytes of the frozen accumulator. -/
theorem execCase_extract (h : ExecCase .extract s t) :
    ∃ d, s.stage = .frozen d ∧ t.resp = s.resp ++ statusOk :: digestBytes d.acc := by
  cases h with
  | discarded h => exact absurd h hf
  | faulted c => exact absurd rfl ht
  | extract d _ hs => exact ⟨d, hs, rfl⟩
  | init e | block _ _ e | final _ _ e => cases e

end

/-- An answered command has been executed, outside `FAULT` before and after. -/
theorem execCase_of_answers {i : Instr} {r : List Byte} {s t : State} (h : Answers i r s t) :
    (s.setCmd t.cmd).phase ≠ .fault ∧ t.phase ≠ .fault ∧ ExecCase i (s.setCmd t.cmd) t := by
  obtain ⟨hf, ht, hd, hstep, _⟩ := h
  exact ⟨hf, ht, exec_inv ((step_of_packet hf hd).symm.trans hstep)⟩

/-- Blocks answered in `ACTIVE` have been folded into the accumulator in order and counted; the commands behind them have
been answered from there. -/
theorem answersAll_blocks {blocks : List (List Byte)} {is : List Instr} {s u : State} {d : DigestState}
    (hs : s.stage = .active d) (h : AnswersAll (blocks.map .block ++ is) s u) :
    (∀ B ∈ blocks, B.length = 64) ∧ ∃ (t : State) (L : Count), L.toNat = d.bitlen.toNat + 512 * blocks.length ∧
      t.stage = .active ⟨blocks.foldl compress d.acc, L⟩ ∧ AnswersAll is t u := by
  induction blocks generalizing s d with
  | nil => exact ⟨fun _ h => (nomatch h), s, d.bitlen, rfl, hs, h⟩
  | cons B blocks ih =>
    obtain ⟨r, v, hanswers, hrest⟩ := h
    obtain ⟨hf, ht, hc⟩ := execCase_of_answers hanswers
    obtain ⟨hB, L, hL, hv⟩ := execCase_block hf ht hs hc
    obtain ⟨hb, t, L', hL', ht', hall⟩ := ih hv hrest
    refine ⟨List.forall_mem_cons.2 ⟨hB, hb⟩, t, L', ?_, ht', hall⟩
    rw [hL', hL, List.length_cons]
    omega

/-! ### Completed digest computations -/

/-- Whole blocks and a shorter payload are the full blocks and the last payload of their message. -/
theorem fullBlocks_and_lastPayload {blocks : List (List Byte)} {last : List Byte} (hb : ∀ B ∈ blocks, B.length = 64)
    (hl : last.length ≤ 63) :
    fullBlocks (blocks.flatten ++ last) = blocks ∧ lastPayload (blocks.flatten ++ last) = last := by
  have hfull : fullBlocks (blocks.flatten ++ last) = blocks := by
    rw [fullBlocks_flatten_append hb, fullBlocks_of_lt (by omega), List.append_nil]
  have hm := fullBlocks_flatten_lastPayload (blocks.flatten ++ last)
  rw [hfull] at hm
  exact ⟨hfull, List.append_cancel_left hm⟩

/-- `INIT`, blocks and `FINAL` answered one after the other have frozen the accumulator of the message they carry. -/
theorem stage_of_answersAll {blocks : List (List Byte)} {last : List Byte} {s u : State}
    (h : AnswersAll (.init :: blocks.map .block ++ [.final last]) s u) :
    ∃ L, u.stage = .frozen ⟨frozenAccum (blocks.flatten ++ last), L⟩ := by
  obtain ⟨r, v, hinit, hrest⟩ := h
  obtain ⟨hfs, hfv, hcv⟩ := execCase_of_answers hinit
  obtain ⟨hb, w, L, hL, hw, r', x, hfinal, hx⟩ := answersAll_blocks (execCase_init hfs hfv hcv) hrest
  obtain rfl : x = u := hx
  obtain ⟨hfw, hfx, hcx⟩ := execCase_of_answers hfinal
  obtain ⟨hl, hstage⟩ := execCase_final hfw hfx hw hcx
  obtain ⟨hfull, hlast⟩ := fullBlocks_and_lastPayload hb hl
  have hblocks : blocks.length = (blocks.flatten ++ last).length / 64 := by rw [← fullBlocks_length, hfull]
  have hcount := count_add_payloadBits (m := blocks.flatten ++ last) (L := L) (by
    rw [hL, ← hblocks]
    exact Nat.zero_add _)
  rw [hlast] at hcount
  exact ⟨_, by rw [hstage, frozenAccum, hfull, hlast, hcount]⟩

/-- `EXTRACT` answered has answered `OK` and the digest bytes of the frozen accumulator. -/
theorem response_of_answers_extract {r : List Byte} {u t : State} (h : Answers .extract r u t) :
    ∃ d, u.stage = .frozen d ∧ r = statusOk :: digestBytes d.acc := by
  obtain ⟨hf, ht, hc⟩ := execCase_of_answers h
  obtain ⟨d, hs, hresp⟩ := execCase_extract hf ht hc
  obtain ⟨_, _, _, _, hresp', _⟩ := h
  exact ⟨d, hs, List.append_cancel_left (hresp'.symm.trans hresp)⟩

/-- The digest answered by a completed computation is that of the message its payloads make up. -/
theorem digest_of_digestCompletes {blocks : List (List Byte)} {last D : List Byte} {s t : State}
    (h : DigestCompletes blocks last D s t) : D = digestSpec (blocks.flatten ++ last) := by
  obtain ⟨u, hall, hextract⟩ := h
  obtain ⟨L, hu⟩ := stage_of_answersAll hall
  obtain ⟨d, hd, hr⟩ := response_of_answers_extract hextract
  obtain rfl : ⟨frozenAccum (blocks.flatten ++ last), L⟩ = d := Stage.frozen.inj (hu.symm.trans hd)
  rw [digestSpec_eq]
  exact (List.cons.inj hr).2

/-- Commands answered, cut in two. -/
theorem answersAll_append {is js : List Instr} {s u : State} (h : AnswersAll (is ++ js) s u) :
    ∃ t, AnswersAll is s t ∧ AnswersAll js t u := by
  induction is generalizing s with
  | nil => exact ⟨s, rfl, h⟩
  | cons i is ih =>
    obtain ⟨r, v, hanswers, hrest⟩ := h
    obtain ⟨t, his, hjs⟩ := ih hrest
    exact ⟨t, ⟨r, v, hanswers, his⟩, hjs⟩

/-- Commands answered are as many steps of the run. -/
theorem run_of_answersAll {is : List Instr} {s t : State} (h : AnswersAll is s t) :
    Sys2Proof.core.run is.length s = .next t := by
  induction is generalizing s with
  | nil =>
    obtain rfl : s = t := h
    rfl
  | cons i is ih =>
    obtain ⟨r, u, ⟨_, _, _, hstep, _⟩, hrest⟩ := h
    simpa only [List.length_cons, Host.Core.run, Host.Check.core_step, hstep] using ih hrest

/-- The commands of a message, answered, are a completed computation of its digest. -/
theorem digestCompletes_of_answersAll {m : List Byte} {s t : State} (h : AnswersAll (digestCommands m) s t) :
    DigestCompletes (fullBlocks m) (lastPayload m) (digestSpec m) s t := by
  have hsplit : digestCommands m =
      (.init :: (fullBlocks m).map .block ++ [.final (lastPayload m)]) ++ [.extract] := by
    rw [digestCommands_eq, absorbCommands, List.cons_append, List.cons_append, List.append_assoc]
    rfl
  rw [hsplit] at h
  obtain ⟨u, hall, r, v, hextract, hv⟩ := answersAll_append h
  obtain rfl : v = t := hv
  obtain ⟨d, _, rfl⟩ := response_of_answers_extract hextract
  have hcompletes : DigestCompletes (fullBlocks m) (lastPayload m) (digestBytes d.acc) s v := ⟨u, hall, hextract⟩
  have hdigest := digest_of_digestCompletes hcompletes
  rw [fullBlocks_flatten_lastPayload] at hdigest
  exact hdigest ▸ hcompletes

/-- Settles O55: what a completed computation has answered, and lawful commands with a message's behind them,
all answered. -/
theorem completedComputationInRun : Obligations.CompletedComputationInRun := by
  refine ⟨fun bytes last D blocks h => ?_, fun before m after hbefore hm => ?_⟩
  · obtain ⟨_, _, _, _, h⟩ := h
    rw [digest_of_digestCompletes h]
    exact ⟨rfl, digestSpec_length _⟩
  · have hmessage : ∀ q k, q ≠ .fault → lawful q k (digestCommands m) = true := fun q k hq => by
      rw [← List.append_nil (digestCommands m)]
      exact lawful_digestCommands hm hq k rfl
    obtain ⟨t, hall, _⟩ := answersAll_of_reset (lawful_append (by decide) hbefore hmessage) after
    obtain ⟨s, hbefore, hdigest⟩ := answersAll_append hall
    exact ⟨before.length, s, t, run_of_answersAll hbefore, digestCompletes_of_answersAll hdigest⟩

end Sys2Proof.Machine
end

section
/-! PROOFS. The assembler, the disassembler and the text between them (30_encoding.md R51, R52, R54). -/

namespace Sys2Proof.Machine

/-! ### Hex text -/

/-- The digit of a nibble is read back. -/
theorem hexValue_hexDigit (n : BitVec 4) : hexValue (hexDigit n) = some n := by
  decide +revert

/-- No hex digit is a quotation mark. -/
theorem hexDigit_ne_quote (n : BitVec 4) : hexDigit n ≠ '"' := by
  decide +revert

/-- A byte is its two nibbles, the high one first. -/
theorem nibbles_append (b : Byte) : b.extractLsb' 4 4 ++ b.extractLsb' 0 4 = b :=
  BitVec.extractLsb'_append_extractLsb'

/-- Nothing stands before the closing quotation mark. -/
theorem readHexPairs_quote (rest : List Char) : readHexPairs ('"' :: rest) = some ([], rest) := by
  cases rest <;> rfl

/-- The hex form of bytes is read back up to the closing quotation mark. -/
theorem readHexPairs_hexForm (bs : List Byte) (rest : List Char) :
    readHexPairs (hexForm bs ++ '"' :: rest) = some (bs, rest) := by
  induction bs with
  | nil => exact readHexPairs_quote rest
  | cons b bs ih =>
    rw [hexForm_cons, List.cons_append, List.cons_append, readHexPairs, if_neg (hexDigit_ne_quote _), hexValue_hexDigit,
      hexValue_hexDigit, ih]
    simp only [nibbles_append]

/-- Hex pairs behind a blank, up to the end of the line. -/
theorem readBytesText_printBytes (bs : List Byte) :
    readBytesText (' ' :: printBytes (.hex bs)) = some (.hex bs, []) := by
  have hskip : skipBlanks (' ' :: printBytes (.hex bs)) = 'x' :: '"' :: (hexForm bs ++ ['"']) := rfl
  rw [readBytesText, hskip]
  simp only [readHexPairs_hexForm]
  rfl

/-- A command with hex pairs behind a blank, up to the end of the line. -/
theorem withBytes_printBytes (f : AsmBytes → AsmCommand) (bs : List Byte) :
    withBytes f (' ' :: printBytes (.hex bs)) = some (f (.hex bs)) := by
  rw [withBytes, readBytesText_printBytes]
  rfl

/-- A command word is its four nibbles, the highest one first. -/
theorem nibbles_append_word (cw : CmdWord) :
    ((CmdWord.op cw).extractLsb' 4 4 ++ (CmdWord.op cw).extractLsb' 0 4 ++ (CmdWord.len cw).extractLsb' 4 4 ++
      (CmdWord.len cw).extractLsb' 0 4 : CmdWord) = cw := by
  have hnibble : ∀ {n : Nat} (hi : BitVec n) (lo : BitVec 4), (hi ++ lo).toNat = hi.toNat * 16 + lo.toNat :=
    fun hi lo => by rw [BitVec.toNat_append, ← Nat.shiftLeft_add_eq_or_of_lt lo.isLt, Nat.shiftLeft_eq]
  refine BitVec.eq_of_toNat_eq ?_
  simp only [hnibble, CmdWord.op, CmdWord.len, BitVec.extractLsb'_toNat, Nat.shiftRight_eq_div_pow]
  omega

/-- A printed command word behind a blank is read back. -/
theorem readHex16_printWord (cw : CmdWord) (rest : List Char) :
    readHex16 (' ' :: (printWord cw ++ rest)) = some (cw, rest) := by
  have hskip : skipBlanks (' ' :: (printWord cw ++ rest)) = printWord cw ++ rest := rfl
  rw [readHex16, hskip, printWord, cmdWordBytes, hexForm_cons, hexForm_cons, hexForm_nil]
  simp only [List.cons_append, List.nil_append, hexValue_hexDigit, nibbles_append_word]

/-! ### Printed commands are read back -/

theorem readLine_printCommand_block (bs : List Byte) :
    readLine (printCommand (.block (.hex bs))) = some (.block (.hex bs)) :=
  withBytes_printBytes .block bs

theorem readLine_printCommand_final (bs : List Byte) :
    readLine (printCommand (.final (.hex bs))) = some (.final (.hex bs)) :=
  withBytes_printBytes .final bs

/-- `.cmd` with a word alone. -/
theorem readLine_printCommand_raw (cw : CmdWord) :
    readLine (printCommand (.raw cw none)) = some (.raw cw none) := by
  have hline : readLine (printCommand (.raw cw none)) = readRaw (' ' :: (printWord cw ++ [])) := rfl
  rw [hline, readRaw, readHex16_printWord]
  rfl

/-- `.cmd` with a word and bytes. -/
theorem readLine_printCommand_raw_bytes (cw : CmdWord) (bs : List Byte) :
    readLine (printCommand (.raw cw (some (.hex bs)))) = some (.raw cw (some (.hex bs))) := by
  have hline : readLine (printCommand (.raw cw (some (.hex bs)))) =
      readRaw (' ' :: (printWord cw ++ ' ' :: printBytes (.hex bs))) := rfl
  have hmore : lineEnds (' ' :: printBytes (.hex bs)) = false := rfl
  rw [hline, readRaw, readHex16_printWord]
  simp only [hmore, Bool.false_eq_true, if_false, withBytes_printBytes fun b => .raw cw (some b)]

/-- A line that is read as a command assembles to what the command does. -/
theorem assembleLine_of_readLine {line : List Char} {c : AsmCommand} (h : readLine line = some c) :
    assembleLine line = assemble c := by
  rw [assembleLine, h]

/-! ### The assembler's rules -/

theorem assemble_block {b : AsmBytes} (h : b.denote.length = 64) :
    assemble (.block b) = .ok (encode (.block b.denote)) := if_pos h

theorem assemble_final {b : AsmBytes} (h : b.denote.length ≤ 63) :
    assemble (.final b) = .ok (encode (.final b.denote)) := if_pos h

/-- Settles O60, from the tests of `assemble` and by reading the two lines of text. -/
theorem assembleRule : Obligations.AssembleRule :=
  ⟨rfl, rfl, fun _ h => if_neg h, fun _ h => if_neg (Nat.not_le.2 h), fun _ => assemble_block,
    fun _ => assemble_final, rfl, rfl, fun _ => rfl, fun _ _ => rfl, fun _ => rfl⟩

/-- A word that is not legal is disassembled as `.cmd`, with the payload if there is one. -/
theorem disassemble_of_not_legal {cw : CmdWord} (h : ∀ op, classify cw ≠ .legal op) (payload : List Byte) :
    disassemble cw payload = .raw cw (if payload = [] then none else some (.hex payload)) := by
  rw [disassemble]
  cases hc : classify cw with
  | legal op => exact absurd hc (h op)
  | illegalLen => rfl
  | reservedOp => rfl

/-- The packet of a well-formed command, through text and back. -/
theorem assembleLine_disassemble {i : Instr} (h : i.wellFormed = true) :
    assembleLine (printCommand (disassemble (i.op.byte ++ i.len) i.payload)) = .ok (encode i) := by
  have hclass : classify (i.op.byte ++ i.len) = .legal i.op :=
    classify_append_eq_legal.2 ⟨rfl, by rw [len_toNat h]; exact lenLegal_of_wellFormed h⟩
  rw [disassemble, hclass]
  cases i with
  | init => rfl
  | block p =>
    exact (assembleLine_of_readLine (readLine_printCommand_block p)).trans (assemble_block (eq_of_beq h))
  | final p =>
    exact (assembleLine_of_readLine (readLine_printCommand_final p)).trans (assemble_final (of_decide_eq_true h))
  | extract => rfl

/-- Settles O59: legal packets come back as their commands, every other word as `.cmd`. -/
theorem disassembleAssemble : Obligations.DisassembleAssemble := by
  refine ⟨fun i cw hw hcw => hcw ▸ assembleLine_disassemble hw, fun cw payload h => ?_⟩
  rw [disassemble_of_not_legal h]
  cases payload with
  | nil => exact assembleLine_of_readLine (readLine_printCommand_raw cw)
  | cons b payload => exact assembleLine_of_readLine (readLine_printCommand_raw_bytes cw (b :: payload))

end Sys2Proof.Machine
end
